-- ==== Sys2Proof/Config.lean ====
section
/-! DEFINITION. The parameters of the core (`00_scope.md` R9) and the free values of the host-side text that the spec
leaves open. The core's parameters are fields of `Params`; the two of the listing are arguments of its functions. -/

namespace Sys2Proof

/-- The setting of `DATA_WIDTH` or `PC_WIDTH` (R9): unbounded, or a finite number of bits. -/
inductive Width where
  | unbounded
  | finite (n : Nat)
  deriving DecidableEq, Repr

/-- The setting of `SENTINEL_OPERAND` (R9, R94, I6; log 11): what a used operand that is the `Halt` sentinel does. -/
inductive SentinelSetting where
  /-- It raises `SentinelOperand`. -/
  | fault
  /-- It reads as 0. -/
  | zero
  deriving DecidableEq, Repr

/-- The setting of `LISTING_COMPAT` (R9, D20): the comment pairing of `to_longform`. -/
inductive ListingCompat where
  | original
  | fixed
  deriving DecidableEq, Repr

/-- The parameters of one build of the core (R9), fixed for the life of the core (log 1). -/
structure Params where
  /-- `NUM_REGS`: the size of the register bank. -/
  numRegs : Nat
  /-- `TOKEN_BITS`: the bits of a byte token (log 4). -/
  tokenBits : Nat
  /-- `DATA_WIDTH`: the width of `ACC`, `INC` and the registers. -/
  dataWidth : Width
  /-- `PC_WIDTH`: the width of `PC`. -/
  pcWidth : Width
  /-- `CYCLE_LIMIT`: the bound of R193. -/
  cycleLimit : Nat
  /-- `SENTINEL_OPERAND`. -/
  sentinelOperand : SentinelSetting
  deriving DecidableEq, Repr

/-- The settings of this hardware: the "value" column of R9 (logs 4 and 20: the bank's size, the
token's size and the limit are unaudited literals). -/
def Params.reference : Params where
  numRegs := 16
  tokenBits := 8
  dataWidth := .unbounded
  pcWidth := .unbounded
  cycleLimit := 1000
  sentinelOperand := .fault

/-- The bound of `TOKEN_BITS`: an opcode byte of R83 has eight bits (log 4, DESIGN CHOICE: the spec gives no bound). -/
def Params.tokenBitsOk (p : Params) : Bool := decide (8 ≤ p.tokenBits)

/-- The bound of a finite `DATA_WIDTH` (R9): n ≥ 9. DESIGN CHOICE (log 4): for a wider token,
the bound that D1 gives this one for, that every immediate stays non-negative. -/
def Params.dataWidthOk (p : Params) : Bool :=
  match p.dataWidth with
  | .unbounded => true
  | .finite n => decide (9 ≤ n ∧ p.tokenBits < n)

/-- The bound of a finite `PC_WIDTH` (R9, R62): p ≥ 8. DESIGN CHOICE (log 4): for a wider token,
the bound that R62's argument needs, that every branch target fits. -/
def Params.pcWidthOk (p : Params) : Bool :=
  match p.pcWidth with
  | .unbounded => true
  | .finite w => decide (8 ≤ w ∧ p.tokenBits ≤ w)

/-- The bounds that the parameters of a build keep. -/
def Params.wf (p : Params) : Bool := p.tokenBitsOk && p.dataWidthOk && p.pcWidthOk

/-- The lines of the state report, in the order R233 lists them. -/
inductive ReportField where
  | cycles
  | opcode
  | operand1
  | operand2
  | pc
  | inc
  | acc
  | register (i : Nat)
  deriving DecidableEq, Repr

/-- The base of a state report (R233). -/
inductive ReportFormat where
  | decimal
  | hex
  deriving DecidableEq, Repr

/-- FREE VALUE (R233, I14, N19; log 18): the right-justified label text of a report line. -/
opaque Config.reportLabel : ReportField → List Char

/-- FREE VALUE (R233, I14, N19; log 18): what a report puts between the label and a value whose text has that many
characters: the field's width, which the spec does not give. -/
opaque Config.reportPad : ReportFormat → ReportField → Nat → List Char

/-- FREE VALUE (R233, I14, N19; log 18): the whole text of a negative number in hexadecimal. -/
opaque Config.reportNegativeHex : Int → List Char

/-- FREE VALUE (R233, I14; log 18): whether a report writes the hexadecimal digits above 9 in upper case. -/
opaque Config.reportUpperHex : Bool

/-- FREE VALUE (R233, I14, N19; log 18): what a report prints where no value exists (no operation yet, no operand, the
sentinel as an operand). -/
opaque Config.reportNoValue : ReportField → List Char

/-- FREE VALUE (D20, I2; log 17): the comment that `LISTING_COMPAT = fixed` gives the listing entry at a position; the
spec names the setting and does not say what it pairs, nor on what. DESIGN CHOICE: it depends on the program text and
the entry's position. The text fixes the image, the comments and how many tokens each source line gave, so a pairing by
address and one by source line are both among its values. -/
opaque Config.fixedComment : List Char → Nat → List Char

end Sys2Proof
end

