-- ==== Sys2Proof/Word.lean ====
section
/-! DEFINITION. The plain data of the core: bytes, tokens and text. A data word (`10_state.md` R32, R35,
R36) is a signed integer and is Lean's `Int` itself; a finite `DATA_WIDTH` reduces what is written to one
(`00_scope.md` R11, `Machine.wrap`). A byte is the natural number it stands for; that it has `TOKEN_BITS` bits is a
fact about the image (`Token.fits`), because `TOKEN_BITS` is a parameter of the build (`00_scope.md` R9). -/

namespace Sys2Proof

/-- A byte token's value (`20_memory.md` R60, `00_scope.md` R13; log 4). -/
abbrev Byte := Nat

/-- One token of the program image (`20_memory.md` R60): a byte, or the `Halt` sentinel. -/
inductive Token where
  | byte (b : Byte)
  | halt
  deriving DecidableEq, Repr

/-- The program image (`20_memory.md` R60): the token at position `i` is `tok(i)`, the length is `LEN` (log 3). -/
abbrev Image := List Token

/-- A token of a build whose `TOKEN_BITS` is `bits` (`00_scope.md` R9, `20_memory.md` R60): a byte has that many bits,
and the sentinel has none. -/
def Token.fits (bits : Nat) : Token → Bool
  | .byte b => decide (b < 2 ^ bits)
  | .halt => true

/-- A piece of program text or of a listing (host side). -/
abbrev Text := List Char

/-- `zext(b)` (`00_scope.md` R13): the non-negative value of a byte. -/
abbrev zext (b : Byte) : Nat := b

end Sys2Proof
end

