-- ==== Sys2Proof/Syntax.lean ====
section
/-! DEFINITION. The instructions of MX (`30_encoding.md` R81-R87), one constructor of `Instr` per row of
`spec/opcode_table.json`, and the operation `CUROP` records (`10_state.md` R40). -/

namespace Sys2Proof

/-- The 14 opcodes (R81): thirteen bytes and the sentinel. -/
inductive Opcode where
  | b1 | b2 | b3
  | c0 | c1 | c2 | c3 | c4 | c5 | c6
  | d0 | d1 | d2
  | halt
  deriving DecidableEq, Repr

/-- An operand view (R89): what the decoder sees at `PC+1` or `PC+2`. -/
inductive OperandView where
  /-- There is no such token. -/
  | absent
  /-- The token is `Halt`. -/
  | sentinel
  /-- The token is a byte. -/
  | byte (b : Byte)
  deriving DecidableEq, Repr

/-- Which operand of an instruction: the `n` of `SentinelOperand(pc, n)` (R94). -/
inductive OperandNo where
  | one
  | two
  deriving DecidableEq, Repr

/-- The operand kinds (R87). -/
inductive OperandKind where
  | reg
  | val
  | addr
  deriving DecidableEq, Repr

/-- The formats (R82): the number of tokens. -/
inductive Format where
  | T1
  | T2
  | T3
  deriving DecidableEq, Repr

/-- The last decoded operation (`10_state.md` R40): opcode and both operand views, used or not. -/
structure DecodedOp where
  op : Opcode
  o1 : OperandView
  o2 : OperandView
  deriving DecidableEq, Repr

/-- An instruction with the views of the operands its format has (R82, R83). The decoder checks no operand value (R90),
so an operand is a whole view: `use` (R94) checks it when the instruction executes. -/
inductive Instr where
  /-- `b1 addr` (R111). -/
  | b1 (addr : OperandView)
  /-- `b2 reg, addr` (R113). -/
  | b2 (reg addr : OperandView)
  /-- `b3 val, addr` (R116). -/
  | b3 (val addr : OperandView)
  /-- `c0 reg` (R130). -/
  | c0 (reg : OperandView)
  /-- `c1 val` (R131). -/
  | c1 (val : OperandView)
  /-- `c2` (R140). -/
  | c2
  /-- `c3` (R141). -/
  | c3
  /-- `c4` (R142). -/
  | c4
  /-- `c5` (R143). -/
  | c5
  /-- `c6` (R144). -/
  | c6
  /-- `d0 reg` (R160). -/
  | d0 (reg : OperandView)
  /-- `d1 val` (R163). -/
  | d1 (val : OperandView)
  /-- `d2 reg` (R166). -/
  | d2 (reg : OperandView)
  /-- `halt` (R180). -/
  | halt
  /-- The table's row "(illegal)" (R92): a byte that is no opcode (log 7). -/
  | illegal (b : Byte)
  deriving DecidableEq, Repr

/-- The opcode of an instruction; an illegal byte has none. -/
def Instr.opcode? : Instr → Option Opcode
  | .b1 _ => some .b1
  | .b2 _ _ => some .b2
  | .b3 _ _ => some .b3
  | .c0 _ => some .c0
  | .c1 _ => some .c1
  | .c2 => some .c2
  | .c3 => some .c3
  | .c4 => some .c4
  | .c5 => some .c5
  | .c6 => some .c6
  | .d0 _ => some .d0
  | .d1 _ => some .d1
  | .d2 _ => some .d2
  | .halt => some .halt
  | .illegal _ => none

/-- The operand views an instruction uses, in token order (R82). -/
def Instr.operands : Instr → List OperandView
  | .b1 addr => [addr]
  | .b2 reg addr => [reg, addr]
  | .b3 val addr => [val, addr]
  | .c0 reg => [reg]
  | .c1 val => [val]
  | .c2 => []
  | .c3 => []
  | .c4 => []
  | .c5 => []
  | .c6 => []
  | .d0 reg => [reg]
  | .d1 val => [val]
  | .d2 reg => [reg]
  | .halt => []
  | .illegal _ => []

end Sys2Proof
end

