-- ==== Sys2Proof/WellFormed.lean ====
section
/-! DEFINITION. Which `Instr` terms an iteration of a build with `bits` = `TOKEN_BITS` can decode. A register number above
15 is no defect here: such an instruction decodes, and raises `RegisterIndexOutOfRange` when it executes
(`30_encoding.md` R90, R94). -/

namespace Sys2Proof

/-- The 13 opcode bytes (`30_encoding.md` R81). -/
def opcodeBytes : List Byte :=
  [0xB1, 0xB2, 0xB3, 0xC0, 0xC1, 0xC2, 0xC3, 0xC4, 0xC5, 0xC6, 0xD0, 0xD1, 0xD2]

/-- Operand 1 of an executed instruction is never absent (`44_halt_and_run_loop.md` R195). -/
def OperandView.isPresent : OperandView → Bool
  | .absent => false
  | .sentinel => true
  | .byte _ => true

/-- A byte operand has `TOKEN_BITS` bits (`00_scope.md` R9). -/
def OperandView.fits (bits : Nat) : OperandView → Bool
  | .absent => true
  | .sentinel => true
  | .byte b => decide (b < 2 ^ bits)

/-- The checks of operand 1 of a format that has one. -/
def OperandView.firstWellFormed (bits : Nat) (o : OperandView) : Bool := o.isPresent && o.fits bits

/-- The checks: operand 1, where the format has one, is present (R195); an illegal byte is none of the 13 (R92); every
byte has `TOKEN_BITS` bits. -/
def Instr.wellFormed (bits : Nat) : Instr → Bool
  | .b1 addr => addr.firstWellFormed bits
  | .b2 reg addr => reg.firstWellFormed bits && addr.fits bits
  | .b3 val addr => val.firstWellFormed bits && addr.fits bits
  | .c0 reg => reg.firstWellFormed bits
  | .c1 val => val.firstWellFormed bits
  | .c2 => true
  | .c3 => true
  | .c4 => true
  | .c5 => true
  | .c6 => true
  | .d0 reg => reg.firstWellFormed bits
  | .d1 val => val.firstWellFormed bits
  | .d2 reg => reg.firstWellFormed bits
  | .halt => true
  | .illegal b => decide (b ∉ opcodeBytes ∧ b < 2 ^ bits)

end Sys2Proof
end

