-- ==== Sys2Proof/Decode.lean ====
section
/-! DEFINITION. The encoding tables, the decoder (total on any list of tokens) and the encoder (`30_encoding.md`). -/

namespace Sys2Proof

/-! ### The opcode map (R83) -/

/-- The opcode a byte names, matched whole (R83, R84, R90); none for the illegal values (R92). -/
def Opcode.ofByte? (b : Byte) : Option Opcode :=
  if b = 0xB1 then some .b1
  else if b = 0xB2 then some .b2
  else if b = 0xB3 then some .b3
  else if b = 0xC0 then some .c0
  else if b = 0xC1 then some .c1
  else if b = 0xC2 then some .c2
  else if b = 0xC3 then some .c3
  else if b = 0xC4 then some .c4
  else if b = 0xC5 then some .c5
  else if b = 0xC6 then some .c6
  else if b = 0xD0 then some .d0
  else if b = 0xD1 then some .d1
  else if b = 0xD2 then some .d2
  else none

/-- The opcode of a token (R90); none where the token is an illegal byte. -/
def Opcode.ofToken? : Token → Option Opcode
  | .halt => some .halt
  | .byte b => Opcode.ofByte? b

/-- The opcode token of an opcode (R81, R83). -/
def Opcode.token : Opcode → Token
  | .b1 => .byte 0xB1
  | .b2 => .byte 0xB2
  | .b3 => .byte 0xB3
  | .c0 => .byte 0xC0
  | .c1 => .byte 0xC1
  | .c2 => .byte 0xC2
  | .c3 => .byte 0xC3
  | .c4 => .byte 0xC4
  | .c5 => .byte 0xC5
  | .c6 => .byte 0xC6
  | .d0 => .byte 0xD0
  | .d1 => .byte 0xD1
  | .d2 => .byte 0xD2
  | .halt => .halt

/-- The format of an opcode (R83). -/
def Opcode.format : Opcode → Format
  | .b1 => .T2
  | .b2 => .T3
  | .b3 => .T3
  | .c0 => .T2
  | .c1 => .T2
  | .c2 => .T1
  | .c3 => .T1
  | .c4 => .T1
  | .c5 => .T1
  | .c6 => .T1
  | .d0 => .T2
  | .d1 => .T2
  | .d2 => .T2
  | .halt => .T1

/-- The length of a format in tokens (R82). -/
def Format.length : Format → Nat
  | .T1 => 1
  | .T2 => 2
  | .T3 => 3

/-- The length of an opcode's instruction in tokens (R86): the opcode alone fixes it (R95). -/
def Opcode.length (op : Opcode) : Nat := op.format.length

/-- The kinds of an opcode's operands, in token order (R83). -/
def Opcode.operandKinds : Opcode → List OperandKind
  | .b1 => [.addr]
  | .b2 => [.reg, .addr]
  | .b3 => [.val, .addr]
  | .c0 => [.reg]
  | .c1 => [.val]
  | .c2 => []
  | .c3 => []
  | .c4 => []
  | .c5 => []
  | .c6 => []
  | .d0 => [.reg]
  | .d1 => [.val]
  | .d2 => [.reg]
  | .halt => []

/-! ### The decoder (R89, R90) -/

/-- `view` (R89) of a token that may not exist. -/
def viewOf : Option Token → OperandView
  | none => .absent
  | some .halt => .sentinel
  | some (.byte b) => .byte b

/-- Why the decoder answers no instruction: there is no token at all (R90 is asked only where `present(PC)` holds). A
token that is an illegal byte is the table's own row, and decodes to `Instr.illegal` (log 7). -/
inductive DecodeError where
  | noToken
  deriving DecidableEq, Repr

/-- What the decoder answers (R90): the instruction, and both operand views for `CUROP`. -/
structure Decoded where
  instr : Instr
  o1 : OperandView
  o2 : OperandView
  deriving DecidableEq, Repr

/-- The instruction of an opcode with its two operand views: it takes the views its format has (R82). -/
def Opcode.instr (op : Opcode) (o1 o2 : OperandView) : Instr :=
  match op with
  | .b1 => .b1 o1
  | .b2 => .b2 o1 o2
  | .b3 => .b3 o1 o2
  | .c0 => .c0 o1
  | .c1 => .c1 o1
  | .c2 => .c2
  | .c3 => .c3
  | .c4 => .c4
  | .c5 => .c5
  | .c6 => .c6
  | .d0 => .d0 o1
  | .d1 => .d1 o1
  | .d2 => .d2 o1
  | .halt => .halt

/-- The instruction that an opcode token with two operand views stands for (R90, R92). -/
def instrOfToken (t : Token) (o1 o2 : OperandView) : Instr :=
  match t with
  | .halt => Opcode.instr .halt o1 o2
  | .byte b =>
    match Opcode.ofByte? b with
    | some op => op.instr o1 o2
    | none => .illegal b

/-- The decoder (R90) on the tokens from `PC` on: the first is the opcode token, the next two give the operand views. -/
def decodeTokens : List Token → Except DecodeError Decoded
  | [] => .error .noToken
  | t :: rest =>
    let o1 := viewOf rest[0]?
    let o2 := viewOf rest[1]?
    .ok ⟨instrOfToken t o1 o2, o1, o2⟩

/-! ### The encoder -/

/-- The tokens of one operand view: none where there is no token. -/
def OperandView.tokens : OperandView → List Token
  | .absent => []
  | .sentinel => [.halt]
  | .byte b => [.byte b]

/-- The tokens of an instruction (R82, R83): its opcode token, then its operands in increasing index order (R65). -/
def encode : Instr → List Token
  | .b1 addr => Opcode.b1.token :: addr.tokens
  | .b2 reg addr => Opcode.b2.token :: (reg.tokens ++ addr.tokens)
  | .b3 val addr => Opcode.b3.token :: (val.tokens ++ addr.tokens)
  | .c0 reg => Opcode.c0.token :: reg.tokens
  | .c1 val => Opcode.c1.token :: val.tokens
  | .c2 => [Opcode.c2.token]
  | .c3 => [Opcode.c3.token]
  | .c4 => [Opcode.c4.token]
  | .c5 => [Opcode.c5.token]
  | .c6 => [Opcode.c6.token]
  | .d0 reg => Opcode.d0.token :: reg.tokens
  | .d1 val => Opcode.d1.token :: val.tokens
  | .d2 reg => Opcode.d2.token :: reg.tokens
  | .halt => [Opcode.halt.token]
  | .illegal b => [.byte b]

/-! ### The host's opcode-table words -/

/-- Token `k` of a word whose tokens have `bits` bits each, the first token lowest. -/
def wordByte (bits w k : Nat) : Byte := w / 2 ^ (k * bits) % 2 ^ bits

/-- The tokens of an instruction given as the opcode table numbers its bits, in a build whose `TOKEN_BITS` is `bits`: the
lowest byte first, three tokens in all, the longest instruction. A row with no bits (`nbits` 0) is the sentinel's row: no
byte encodes `halt` (R81), so its opcode token is `Halt` (log 8). -/
def tableTokens (bits nbits w : Nat) : List Token :=
  let v := w % 2 ^ nbits
  (if nbits = 0 then .halt else .byte (wordByte bits v 0)) :: [.byte (wordByte bits v 1), .byte (wordByte bits v 2)]

/-- The instruction the decoder reads from a word of the opcode table, whose tokens are those of this hardware. -/
def decodeTableWord (nbits w : Nat) : Option Instr :=
  match decodeTokens (tableTokens Params.reference.tokenBits nbits w) with
  | .ok d => some d.instr
  | .error _ => none

end Sys2Proof
end

