-- ==== Sys2Proof/Machine/State.lean ====
section
/-! DEFINITION. The state of the core (`10_state.md` R30) as plain data, the errors (`60_exceptions.md` R210), the
reasons a step can stop, and the machine after reset (`10_state.md` R45). -/

namespace Sys2Proof.Machine

/-- The errors a step raises (`60_exceptions.md` R210, codes 2 to 5), each with the information R210 records (log 22). They are
values of `STATUS`, not stops of the model: the spec gives their whole effect (R214). -/
inductive StepError where
  /-- The token at `PC` is no opcode (R211). -/
  | unsupportedOpcode (token : Token) (pc : Nat)
  /-- A `reg` operand is a byte above 15 (R212). -/
  | registerIndexOutOfRange (index : Nat) (pc : Nat)
  /-- A used operand is absent (R213). -/
  | missingOperand (pc : Nat)
  /-- A used operand is the sentinel (R213). -/
  | sentinelOperand (pc : Nat) (n : OperandNo)
  deriving DecidableEq, Repr

/-- The construction option (R250) or build bound (R62) that `ConfigurationOutOfRange` records (R210). -/
inductive ConfigOption where
  | pc
  | inc
  | acc
  | override (position : Nat)
  | programLength
  | tokenBits
  | pcWidth
  | dataWidth
  deriving DecidableEq, Repr

/-- The errors the host raises before any step (`60_exceptions.md` R210, codes 1, 3 and 6): no core is built (R253). -/
inductive HostError where
  /-- A long-form line or a token that is not of the form (R261, R265), with the offending text. -/
  | malformedProgram (offending : Text)
  /-- An override position outside 0..15 (R252). -/
  | registerIndexOutOfRange (position : Nat)
  /-- A construction value that does not fit the build (R252). -/
  | configurationOutOfRange (option : ConfigOption)
  deriving DecidableEq, Repr

/-- How the missing-next-token rule stopped the core (`44_halt_and_run_loop.md` R196). -/
inductive HaltKind where
  | atSentinel
  | implicitEnd
  deriving DecidableEq, Repr

/-- `STATUS` (`10_state.md` R44). Every case but `running` is terminal (`44_halt_and_run_loop.md` R197). -/
inductive Status where
  | running
  | halted (kind : HaltKind)
  | cycleLimitExceeded
  | faulted (f : StepError)
  deriving DecidableEq, Repr

/-- The state of the core: R30's seven elements, the program image it reads (an input fixed for the run, R60; log 2)
and the build's parameters (R9; log 1). -/
structure State where
  /-- `PC`, a token index (R38). -/
  pc : Nat
  /-- `INC` (R36). -/
  inc : Int
  /-- `ACC` (R35). -/
  acc : Int
  /-- The register bank `R[0..NUM_REGS-1]`, by register number (R32). -/
  regs : List Int
  /-- `CYCLES` (R42). -/
  cycles : Nat
  /-- `CUROP` (R40). -/
  curop : Option DecodedOp
  /-- `STATUS` (R44). -/
  status : Status
  /-- The program image: `LEN` and `tok` (`20_memory.md` R60). -/
  image : Image
  /-- The parameters of the build (`00_scope.md` R9). -/
  params : Params
  deriving DecidableEq, Repr

/-- The stops of the model that are no behaviour of the core: two guards that no step reaches, because the run loop lets
an iteration through only where `tok(PC)` and `tok(PC+1)` exist (`44_halt_and_run_loop.md` R195; log 6). -/
inductive Fault where
  /-- Raised by an iteration whose decoder is asked at an index with no token. Safe: unreachable, and a stop. -/
  | decodeOutsideImage
  /-- Raised by `halt` executed on an image of no tokens, where `LEN - 1` is no index (R180, R181). Safe: unreachable, and
  a stop. -/
  | haltOnEmptyImage
  deriving DecidableEq, Repr

/-- The model refuses no instruction of MX. -/
inductive Refusal where
  /-- Raised by an arm of `exec` whose instruction has no meaning yet; there is none. Safe: a stop. -/
  | notModelled (mnemonic : String)
  deriving DecidableEq, Repr

/-- The machine after construction with the default options (`10_state.md` R45, `70_reset_and_hazards.md` R250), at the
reference parameters. The spec gives no default program: the image lists nothing (log 9). -/
def State.reset : State where
  pc := 0
  inc := 0
  acc := 0
  regs := List.replicate Params.reference.numRegs 0
  cycles := 0
  curop := none
  status := .running
  image := []
  params := Params.reference

end Sys2Proof.Machine
end

