-- ==== Sys2Proof/Machine/Ops.lean ====
section
/-! DEFINITION. The named operations over the image, the registers and the run-loop state, and raising an error as one
shared operation. -/

namespace Sys2Proof.Machine

/-! ### Data width (`00_scope.md` R11) -/

/-- `wrap` (R11; log 10): the identity when `DATA_WIDTH` is unbounded; for n bits, the integer in [-2^(n-1), 2^(n-1)) that is
congruent to `v` modulo 2^n. -/
def wrap : Width → Int → Int
  | .unbounded, v => v
  | .finite n, v => (v + 2 ^ (n - 1)) % 2 ^ n - 2 ^ (n - 1)

/-- Whether a value lies in the signed range of a width (R11, R252). -/
def fitsWidth : Width → Int → Bool
  | .unbounded, _ => true
  | .finite n, v => decide (-2 ^ (n - 1) ≤ v ∧ v < 2 ^ (n - 1))

/-! ### The program image (`20_memory.md` R60-R63) -/

/-- `LEN` (R14). -/
def State.len (s : State) : Nat := s.image.length

/-- `tok(i)` (R14, R63): the token at index `i`; none where there is no such token, never a read out of range. -/
def State.tok (s : State) (i : Nat) : Option Token := s.image[i]?

/-- `present(i)` (R14). -/
abbrev State.present (s : State) (i : Nat) : Prop := i < s.len

/-- `view(i)` (`30_encoding.md` R89). -/
def State.view (s : State) (i : Nat) : OperandView := viewOf (s.tok i)

/-- The tokens an iteration may read: those at `PC`, `PC+1` and `PC+2` that exist (`10_state.md` R50). -/
def State.fetchWindow (s : State) : List Token := (s.image.drop s.pc).take 3

/-- The bounds a finite `PC_WIDTH` puts on the image's length and on an index (R62). -/
def fitsPcWidth (w : Width) (len pc : Nat) : Bool :=
  match w with
  | .unbounded => true
  | .finite p => decide (8 ≤ p ∧ len ≤ 2 ^ p - 2 ∧ pc < 2 ^ p)

/-- The bound of a finite `PC_WIDTH` on the image's length (R62). -/
def fitsPcLength (w : Width) (len : Nat) : Bool :=
  match w with
  | .unbounded => true
  | .finite p => decide (len ≤ 2 ^ p - 2)

/-- Every token of an image is one of the build's: a byte has `TOKEN_BITS` bits (R60, `00_scope.md` R9). -/
def Memory.tokensFit (p : Params) (m : Image) : Bool := m.all (Token.fits p.tokenBits)

/-- The image as a memory is well formed: its tokens are the build's, and its length is one that the build's `PC_WIDTH`
admits (R62). The list itself is canonical: position is address, so equal images are equal lists (log 3). -/
def Memory.wf (p : Params) (m : Image) : Bool := Memory.tokensFit p m && fitsPcLength p.pcWidth m.length

/-- Replace up to `ts.length` tokens of an image from index `i` on, padding with `Byte 00` up to `i` and growing the image
where needed. Only the host's loading uses it (log 8): no instruction writes the image (R71). -/
def Memory.place (m : Image) (i : Nat) (ts : List Token) : Image :=
  m.take i ++ List.replicate (i - m.length) (.byte 0) ++ ts ++ m.drop (i + ts.length)

/-! ### Reading and writing the data state. Every value written to `ACC`, `INC` or `R[i]` passes through `wrap`
(`10_state.md` R37) -/

/-- The size of the register bank: `NUM_REGS` in every constructed core, and no step changes it (R32, R34). -/
def State.numRegs (s : State) : Nat := s.regs.length

/-- Read `R[i]` (R32). No register is hard-wired. No instruction asks for a number outside the bank: `use` lets none
through (R34). -/
def State.readReg (s : State) (i : Nat) : Int := s.regs.getD i 0

/-- `R[i] <- v` (R14, R37). It never creates a register (R34). -/
def State.writeReg (s : State) (i : Nat) (v : Int) : State :=
  { s with regs := s.regs.set i (wrap s.params.dataWidth v) }

/-- `ACC <- v` (R14, R37). -/
def State.writeAcc (s : State) (v : Int) : State :=
  { s with acc := wrap s.params.dataWidth v }

/-- `INC <- v` (R14, R37). -/
def State.writeInc (s : State) (v : Int) : State :=
  { s with inc := wrap s.params.dataWidth v }

/-- `PC <- a` (R14, R39; log 12): any natural number is a valid value. -/
def State.setPc (s : State) (a : Nat) : State := { s with pc := a }

/-- `PC <- PC + n`: fall through an instruction of `n` tokens (R39, `30_encoding.md` R86). -/
def State.advance (s : State) (n : Nat) : State := s.setPc (s.pc + n)

/-! ### The run-loop state -/

/-- `CYCLES <- CYCLES + 1` (`44_halt_and_run_loop.md` R191). -/
def State.countIteration (s : State) : State := { s with cycles := s.cycles + 1 }

/-- Leave `Running` for a terminal status; nothing else changes (R192, R193, R214). -/
def State.stop (s : State) (st : Status) : State := { s with status := st }

/-- Raise an error in a step (`60_exceptions.md` R214): `STATUS <- Faulted(f)`, and nothing else is written. No handler, no
saved state, no return (R218, R219; log 5). `CYCLES` keeps the increment that the iteration gave it before. -/
def State.raise (s : State) (f : StepError) : State := s.stop (.faulted f)

/-- Whether the cycle limit stops this iteration, asked after the increment (R193). -/
abbrev State.overCycleLimit (s : State) : Prop := s.params.cycleLimit < s.cycles

/-- `haltKind()` (R196). -/
def State.haltKind (s : State) : HaltKind :=
  if s.pc + 1 = s.len ∧ s.tok s.pc = some .halt then .atSentinel else .implicitEnd

/-- The operation `CUROP` records for a decoded instruction (R194); an illegal byte has no operation to record. -/
def recordedOp (d : Decoded) : Option DecodedOp :=
  d.instr.opcode?.map fun op => ⟨op, d.o1, d.o2⟩

/-- `CUROP <- some (op, o1, o2)` after an instruction that did not raise (R194); an instruction that raised has left
`Running`, and keeps `CUROP` (R214; log 21). -/
def State.recordOp (d : Decoded) (s : State) : State :=
  if s.status = .running then { s with curop := recordedOp d } else s

/-- Apply a state update to a next state; a stop stays a stop. -/
def mapNext (f : State → State) :
    Host.Outcome State Fault Refusal → Host.Outcome State Fault Refusal
  | .next s => .next (f s)
  | .fault r => .fault r
  | .refused r => .refused r

/-- End an instruction whose operand checks gave a state or an error: all its writes together (R14), or the error's
effects alone (R214). -/
def complete (s : State) : Except StepError State → Host.Outcome State Fault Refusal
  | .ok t => .next t
  | .error f => .next (s.raise f)

/-! ### The numbers of the errors (`60_exceptions.md` R210) -/

/-- The code of an error raised in a step. -/
def StepError.code : StepError → Nat
  | .unsupportedOpcode _ _ => 2
  | .registerIndexOutOfRange _ _ => 3
  | .missingOperand _ => 4
  | .sentinelOperand _ _ => 5

/-- The `PC` an error raised in a step records. -/
def StepError.pc : StepError → Nat
  | .unsupportedOpcode _ pc => pc
  | .registerIndexOutOfRange _ pc => pc
  | .missingOperand pc => pc
  | .sentinelOperand pc _ => pc

/-- The code of an error raised by the host. -/
def HostError.code : HostError → Nat
  | .malformedProgram _ => 1
  | .registerIndexOutOfRange _ => 3
  | .configurationOutOfRange _ => 6

end Sys2Proof.Machine
end

