-- ==== Sys2Proof/Machine/Operands.lean ====
section
/-! DEFINITION. The operand forms: `use` (`30_encoding.md` R94) for each operand kind of R87, in the order of
`60_exceptions.md` R216. -/

namespace Sys2Proof.Machine

/-- The checks every kind shares (R94): presence, then the sentinel under the setting of `SENTINEL_OPERAND` (R9, I6). -/
def useByte (s : State) (n : OperandNo) (o : OperandView) : Except StepError Byte :=
  match o with
  | .absent => .error (.missingOperand s.pc)
  | .sentinel =>
    match s.params.sentinelOperand with
    | .fault => .error (.sentinelOperand s.pc n)
    | .zero => .ok 0
  | .byte b => .ok b

/-- `use(o, val)` (R94, R87): the non-negative value of the token (R88). -/
def useVal (s : State) (n : OperandNo) (o : OperandView) : Except StepError Nat :=
  match useByte s n o with
  | .ok b => .ok (zext b)
  | .error f => .error f

/-- `use(o, addr)` (R94, R87): an absolute token index, never scaled and never checked against `LEN` (R88, R110). -/
def useAddr (s : State) (n : OperandNo) (o : OperandView) : Except StepError Nat :=
  match useByte s n o with
  | .ok b => .ok (zext b)
  | .error f => .error f

/-- `use(o, reg)` (R94, R87): a register number, after the range check against the bank (D23: 0 to `NUM_REGS - 1`). -/
def useReg (s : State) (n : OperandNo) (o : OperandView) : Except StepError Nat :=
  match useByte s n o with
  | .ok b =>
    if zext b < s.numRegs then .ok (zext b)
    else .error (.registerIndexOutOfRange (zext b) s.pc)
  | .error f => .error f

end Sys2Proof.Machine
end

