-- ==== Sys2Proof/Machine/Arithmetic.lean ====
section
/-! DEFINITION. Accumulator arithmetic (`41_accumulator_arithmetic.md`). -/

namespace Sys2Proof.Machine

/-- `c0 reg` (R130): add a register to `ACC`. -/
def execC0 (reg : OperandView) (s : State) : Host.Outcome State Fault Refusal :=
  complete s do
    let r ← useReg s .one reg
    return (s.writeAcc (s.acc + s.readReg r)).advance 2

/-- `c1 val` (R131): add an immediate to `ACC`. -/
def execC1 (val : OperandView) (s : State) : Host.Outcome State Fault Refusal :=
  complete s do
    let v ← useVal s .one val
    return (s.writeAcc (s.acc + v)).advance 2

end Sys2Proof.Machine
end

