-- ==== Sys2Proof/Machine/Flags.lean ====
section
/-! DEFINITION. MX has no flags and no condition codes (`10_state.md` R41): no instruction records a comparison. What
stands here is the comparison that `b2` and `b3` make inside the instruction (`40_branches.md` R110). -/

namespace Sys2Proof.Machine

/-- The condition of `b2` (R113): equality of signed integers. -/
abbrev State.regEqualsAcc (s : State) (r : Nat) : Prop := s.readReg r = s.acc

/-- The condition of `b3` (R116): the operand is compared as a non-negative integer. -/
abbrev State.accEqualsVal (s : State) (v : Nat) : Prop := s.acc = (v : Int)

end Sys2Proof.Machine
end

