-- ==== Sys2Proof/Machine/Branches.lean ====
section
/-! DEFINITION. The branches (`40_branches.md`). -/

namespace Sys2Proof.Machine

/-- End a conditional branch (R110): to the target when taken, past the branch's three tokens when not. -/
def State.branch (s : State) (taken : Bool) (a : Nat) : State :=
  if taken then s.setPc a else s.advance 3

/-- `b1 addr` (R111): unconditional jump. -/
def execB1 (addr : OperandView) (s : State) : Host.Outcome State Fault Refusal :=
  complete s do
    let a ← useAddr s .one addr
    return s.setPc a

/-- `b2 reg, addr` (R113): branch if a register equals `ACC`. Both operands are checked whether or not it is taken. -/
def execB2 (reg addr : OperandView) (s : State) : Host.Outcome State Fault Refusal :=
  complete s do
    let r ← useReg s .one reg
    let a ← useAddr s .two addr
    return s.branch (decide (s.regEqualsAcc r)) a

/-- `b3 val, addr` (R116): branch if `ACC` equals an immediate. -/
def execB3 (val addr : OperandView) (s : State) : Host.Outcome State Fault Refusal :=
  complete s do
    let v ← useVal s .one val
    let a ← useAddr s .two addr
    return s.branch (decide (s.accEqualsVal v)) a

end Sys2Proof.Machine
end

