-- ==== Sys2Proof/Machine/HaltIllegal.lean ====
section
/-! DEFINITION. `halt` (`44_halt_and_run_loop.md` R180) and the bytes that are no opcode (`30_encoding.md` R92). -/

namespace Sys2Proof.Machine

/-- `halt` (R180): jump to the last token. It does not stop the core itself: the next iteration does (R192). On an image
of no tokens `LEN - 1` does not exist; no step executes it there (R181; log 6). -/
def execHalt (s : State) : Host.Outcome State Fault Refusal :=
  match s.len with
  | 0 => .fault .haltOnEmptyImage
  | last + 1 => .next (s.setPc last)

/-- A byte that is no opcode (R92): `UnsupportedOpcode(Byte b, PC)` (`60_exceptions.md` R211). -/
def execIllegal (b : Byte) (s : State) : Host.Outcome State Fault Refusal :=
  .next (s.raise (.unsupportedOpcode (.byte b) s.pc))

end Sys2Proof.Machine
end

