-- ==== Sys2Proof/Machine/Index.lean ====
section
/-! DEFINITION. The index operations (`42_index_operations.md`): one token, no operand, no error. -/

namespace Sys2Proof.Machine

/-- `c2` (R140): increment `INC`. -/
def execC2 (s : State) : Host.Outcome State Fault Refusal :=
  .next ((s.writeInc (s.inc + 1)).advance 1)

/-- `c3` (R141): decrement `INC`. -/
def execC3 (s : State) : Host.Outcome State Fault Refusal :=
  .next ((s.writeInc (s.inc - 1)).advance 1)

/-- `c4` (R142): clear `INC`. -/
def execC4 (s : State) : Host.Outcome State Fault Refusal :=
  .next ((s.writeInc 0).advance 1)

/-- `c5` (R143): copy `INC` to `ACC`. -/
def execC5 (s : State) : Host.Outcome State Fault Refusal :=
  .next ((s.writeAcc s.inc).advance 1)

/-- `c6` (R144): copy `ACC` to `INC`. -/
def execC6 (s : State) : Host.Outcome State Fault Refusal :=
  .next ((s.writeInc s.acc).advance 1)

end Sys2Proof.Machine
end

