-- ==== Sys2Proof/Machine/Moves.lean ====
section
/-! DEFINITION. The accumulator moves (`43_accumulator_moves.md`). -/

namespace Sys2Proof.Machine

/-- `d0 reg` (R160): copy a register to `ACC`. -/
def execD0 (reg : OperandView) (s : State) : Host.Outcome State Fault Refusal :=
  complete s do
    let r ← useReg s .one reg
    return (s.writeAcc (s.readReg r)).advance 2

/-- `d1 val` (R163): load an immediate into `ACC`, whatever `ACC` held. DEDUCED (log 19): the last sentence of
`10_state.md` R35 says that `d1` cannot lower `ACC`; R163 and the programs P1 and P2 of `95_test_vectors.md` say that it
can, and the model follows them. -/
def execD1 (val : OperandView) (s : State) : Host.Outcome State Fault Refusal :=
  complete s do
    let v ← useVal s .one val
    return (s.writeAcc v).advance 2

/-- `d2 reg` (R166): copy `ACC` to a register. -/
def execD2 (reg : OperandView) (s : State) : Host.Outcome State Fault Refusal :=
  complete s do
    let r ← useReg s .one reg
    return (s.writeReg r s.acc).advance 2

end Sys2Proof.Machine
end

