-- ==== Sys2Proof/Machine/Dispatch.lean ====
section
/-! DEFINITION. The meaning of every instruction: one arm per constructor of `Instr`. -/

namespace Sys2Proof.Machine

def exec (i : Instr) (s : State) : Host.Outcome State Fault Refusal :=
  match i with
  | .b1 addr => Sys2Proof.Machine.execB1 addr s
  | .b2 reg addr => Sys2Proof.Machine.execB2 reg addr s
  | .b3 val addr => Sys2Proof.Machine.execB3 val addr s
  | .c0 reg => Sys2Proof.Machine.execC0 reg s
  | .c1 val => Sys2Proof.Machine.execC1 val s
  | .c2 => Sys2Proof.Machine.execC2 s
  | .c3 => Sys2Proof.Machine.execC3 s
  | .c4 => Sys2Proof.Machine.execC4 s
  | .c5 => Sys2Proof.Machine.execC5 s
  | .c6 => Sys2Proof.Machine.execC6 s
  | .d0 reg => Sys2Proof.Machine.execD0 reg s
  | .d1 val => Sys2Proof.Machine.execD1 val s
  | .d2 reg => Sys2Proof.Machine.execD2 reg s
  | .halt => Sys2Proof.Machine.execHalt s
  | .illegal b => Sys2Proof.Machine.execIllegal b s

end Sys2Proof.Machine
end

