-- ==== Sys2Proof/Machine/Iteration.lean ====
section
/-! DEFINITION. One iteration of the run loop (`44_halt_and_run_loop.md` R190) and how a word of the opcode table is
placed for the next fetch. -/

namespace Sys2Proof.Machine

/-- Decode at `PC` and execute (R190): `exec`, then `CUROP` where the instruction did not raise (R194). -/
def decodeAndExecute (s : State) : Host.Outcome State Fault Refusal :=
  match decodeTokens s.fetchWindow with
  | .ok d => mapNext (State.recordOp d) (exec d.instr s)
  | .error .noToken => .fault .decodeOutsideImage

/-- An iteration of a running core, after its increment of `CYCLES`: the two stopping checks in their order, then the
instruction (R190, `60_exceptions.md` R216). -/
def runningIteration (s : State) : Host.Outcome State Fault Refusal :=
  if s.overCycleLimit then .next (s.stop .cycleLimitExceeded)
  else if s.present (s.pc + 1) then decodeAndExecute s
  else .next (s.stop (.halted s.haltKind))

/-- One iteration (R190): nothing happens unless the core is running (R197); a running core counts first (R191). -/
def iterate (s : State) : Host.Outcome State Fault Refusal :=
  if s.status = .running then runningIteration s.countIteration else .next s

/-- The state in which the next iteration decodes the given tokens: they stand in the image from `PC` on, the core is
running, and its count of iterations leaves room for one more under the limit (log 8). -/
def State.placeAtPc (s : State) (ts : List Token) : State :=
  { s with
    image := Memory.place s.image s.pc ts
    status := .running
    cycles := if s.cycles < s.params.cycleLimit then s.cycles else 0 }

end Sys2Proof.Machine
end

