-- ==== Sys2Proof/Machine/Step.lean ====
section
/-! DEFINITION. The step of the machine: one iteration of the run loop (`10_state.md` R51). -/

namespace Sys2Proof.Machine

/-- One `step` of the interface (`10_state.md` R50, R51). -/
def step (s : State) : Host.Outcome State Fault Refusal := iterate s

/-- The state whose next step runs the instruction of an opcode-table word (log 8). -/
def State.withFetchWord (s : State) (nbits w : Nat) : State :=
  s.placeAtPc (tableTokens s.params.tokenBits nbits w)

end Sys2Proof.Machine
end

