-- ==== Sys2Proof/Machine/Construct.lean ====
section
/-! DEFINITION. Construction, the only reset of the core (`70_reset_and_hazards.md` R250-R253). -/

namespace Sys2Proof.Machine

/-- The construction options with their defaults (R250). `verbose` acts on the host's trace alone
(R230): `hostRun` reads it, and the core never sees it. -/
structure Options where
  pc : Nat := 0
  inc : Int := 0
  acc : Int := 0
  /-- The overrides `{position, value}`, in list order. -/
  registers : List (Nat × Int) := []
  verbose : Bool := false
  deriving DecidableEq, Repr

/-- Refuse a construction unless a condition holds. -/
def ensure (ok : Bool) (e : HostError) : Except HostError Unit :=
  if ok then .ok () else .error e

/-- The bounds of the build itself (R9, R62; log 13). -/
def checkBuild (p : Params) : Except HostError Unit := do
  ensure p.tokenBitsOk (.configurationOutOfRange .tokenBits)
  ensure p.dataWidthOk (.configurationOutOfRange .dataWidth)
  ensure p.pcWidthOk (.configurationOutOfRange .pcWidth)

/-- The bounds of a finite `PC_WIDTH` on the program's length and the initial `PC` (R62, R252). -/
def checkPcWidth (p : Params) (m : Image) (pc : Nat) : Except HostError Unit := do
  ensure (fitsPcLength p.pcWidth m.length) (.configurationOutOfRange .programLength)
  ensure (match p.pcWidth with
    | .unbounded => true
    | .finite w => decide (pc < 2 ^ w)) (.configurationOutOfRange .pc)

/-- One register override (R251, R252): the position is checked first, then the value, which is never wrapped to fit. -/
def applyOverride (p : Params) (regs : List Int) (position : Nat) (value : Int) : Except HostError (List Int) :=
  if position < p.numRegs then
    if fitsWidth p.dataWidth value then .ok (regs.set position (wrap p.dataWidth value))
    else .error (.configurationOutOfRange (.override position))
  else .error (.registerIndexOutOfRange position)

/-- The register overrides (R251): applied in list order, so a later one of the same position wins. -/
def applyOverrides (p : Params) : List Int → List (Nat × Int) → Except HostError (List Int)
  | regs, [] => .ok regs
  | regs, (position, value) :: rest => do
    let regs' ← applyOverride p regs position value
    applyOverrides p regs' rest

/-- Construct a core for a build, a program image and options (R250-R253): the reset state of `10_state.md` R45, or the
host's error and no core. The image it is given is one of the build's tokens (R60; log 3): the loader makes no other. -/
def construct (p : Params) (m : Image) (o : Options) : Except HostError State := do
  checkBuild p
  checkPcWidth p m o.pc
  ensure (fitsWidth p.dataWidth o.inc) (.configurationOutOfRange .inc)
  ensure (fitsWidth p.dataWidth o.acc) (.configurationOutOfRange .acc)
  let regs ← applyOverrides p (List.replicate p.numRegs 0) o.registers
  return {
    pc := o.pc
    inc := o.inc
    acc := o.acc
    regs := regs
    cycles := 0
    curop := none
    status := .running
    image := m
    params := p }

end Sys2Proof.Machine
end

