-- ==== Sys2Proof/Machine/Loader.lean ====
section
/-! DEFINITION. The program loader, the host-side step that builds the image the core reads
(`70_reset_and_hazards.md` R260-R266; `00_scope.md` R5). -/

namespace Sys2Proof.Machine

/-! ### Characters and words -/

/-- The value of a hexadecimal digit (R261). -/
def hexDigit? (c : Char) : Option Nat :=
  if '0' ≤ c ∧ c ≤ '9' then some (c.toNat - '0'.toNat)
  else if 'a' ≤ c ∧ c ≤ 'f' then some (c.toNat - 'a'.toNat + 10)
  else if 'A' ≤ c ∧ c ≤ 'F' then some (c.toNat - 'A'.toNat + 10)
  else none

/-- The characters that separate tokens (R263; log 14). -/
def isSpace (c : Char) : Bool := c.isWhitespace

/-- Split on white space (R263): the maximal runs of other characters. -/
def wordsOf (t : Text) : List Text := (t.splitOnP isSpace).filter fun w => !w.isEmpty

/-- Drop white space at both ends. -/
def trimText (t : Text) : Text := ((t.dropWhile isSpace).reverse.dropWhile isSpace).reverse

/-- A blank line holds white space only (R264; log 14). -/
def isBlankText (t : Text) : Bool := t.all isSpace

/-! ### Tokens (R261, R262) -/

/-- One text token (R261): `halt` in any case is the sentinel, two hexadecimal digits are their byte, anything else is
malformed (D4). The opcode mnemonics are such pairs of digits, in either case (`30_encoding.md` R91). -/
def tokenOf (t : Text) : Except HostError Token :=
  if t.map Char.toLower = ['h', 'a', 'l', 't'] then .ok .halt
  else
    match t with
    | [hi, lo] =>
      match hexDigit? hi, hexDigit? lo with
      | some x, some y => .ok (.byte (16 * x + y))
      | _, _ => .error (.malformedProgram t)
    | _ => .error (.malformedProgram t)

/-- Each text token in order; the first malformed one is reported (log 16). -/
def tokensOf : List Text → Except HostError (List Token)
  | [] => .ok []
  | t :: rest => do
    let k ← tokenOf t
    let ks ← tokensOf rest
    return k :: ks

/-- The final-`00` rewrite (R262): a last token `00` becomes the sentinel, whatever it was meant as; no other token is
touched. -/
def rewriteFinal : List Token → Image
  | [] => []
  | [t] => if t = .byte 0 then [.halt] else [t]
  | t :: u :: rest => t :: rewriteFinal (u :: rest)

/-! ### The two forms (R260, R263, R264) -/

/-- A long-form line (R264): `ADDRESS:INSTRUCTION-BYTES[#COMMENT]`, the address of two hexadecimal digits, which is
dropped unchecked. Answers the trimmed byte portion and the comment; a line not of the form is malformed (R265). DESIGN
CHOICE (log 15): white space at both ends of the comment is dropped too, and the pattern's other details. -/
def longLineOf (line : Text) : Except HostError (Text × Text) :=
  match line.span (· ≠ ':') with
  | (address, _ :: rest) =>
    match trimText address with
    | [hi, lo] =>
      if (hexDigit? hi).isSome && (hexDigit? lo).isSome then
        let (bytes, tail) := rest.span (· ≠ '#')
        .ok (trimText bytes, trimText (tail.drop 1))
      else .error (.malformedProgram line)
    | _ => .error (.malformedProgram line)
  | (_, []) => .error (.malformedProgram line)

/-- Each long-form line in order; the first malformed one is reported (log 16). -/
def longLinesOf : List Text → Except HostError (List (Text × Text))
  | [] => .ok []
  | line :: rest => do
    let p ← longLineOf line
    let ps ← longLinesOf rest
    return p :: ps

/-- What `load` answers (R260): the image, and the comment sequence, one entry per source line (R264). -/
structure Loaded where
  image : Image
  comments : List Text
  deriving DecidableEq, Repr

/-- The image of a text token sequence (R261, R262). -/
def imageOfWords (ws : List Text) : Except HostError Image := do
  let ks ← tokensOf ws
  return rewriteFinal ks

/-- Compact form (R263): split on white space; its comment sequence is empty (D27 (e)). -/
def loadCompact (t : Text) : Except HostError Loaded := do
  let m ← imageOfWords (wordsOf t)
  return ⟨m, []⟩

/-- Long form (R264): the byte portions of the non-blank lines, joined with single spaces and split on white space.
DESIGN CHOICE (log 15): a skipped blank line has no entry in the comment sequence. R264 says both "skip blank lines" and
"exactly one entry per source line"; the choice decides which comment `toLongform` pairs with an entry after a blank line. -/
def loadLong (t : Text) : Except HostError Loaded := do
  let ls ← longLinesOf ((t.splitOn '\n').filter fun line => !isBlankText line)
  let m ← imageOfWords (wordsOf ([' '].intercalate (ls.map Prod.fst)))
  return ⟨m, ls.map Prod.snd⟩

/-- `load` (R260): long form by the presence of a newline, compact form otherwise. -/
def load (t : Text) : Except HostError Loaded :=
  if '\n' ∈ t then loadLong t else loadCompact t

end Sys2Proof.Machine
end

