-- ==== Sys2Proof/Machine/Listing.lean ====
section
/-! DEFINITION. The disassembler (`60_exceptions.md` R235-R238): it reads the image and takes no part in execution
(R234). How keys and tokens are spelt is `LISTING_RENDER`, an argument (`00_scope.md` R9; log 17). -/

namespace Sys2Proof.Machine

/-! ### The walk (R235, R236) -/

/-- One entry of the listing: the index of its first token, and its tokens. -/
structure ListingEntry where
  index : Nat
  tokens : List Token
  deriving DecidableEq, Repr

/-- How many tokens the walk groups from one on (R235): the opcode's length; a token that is no opcode stands alone
(D27 (a)). -/
def groupLength (t : Token) : Nat :=
  match Opcode.ofToken? t with
  | some op => op.length
  | none => 1

/-- The walk from an index on (R235): a group that runs past the end holds the tokens that exist (D27 (b)). The first
argument bounds the number of entries. -/
def listingFrom : Nat → Nat → List Token → List ListingEntry
  | 0, _, _ => []
  | _ + 1, _, [] => []
  | k + 1, i, t :: ts =>
    ⟨i, (t :: ts).take (groupLength t)⟩ ::
      listingFrom k (i + groupLength t) ((t :: ts).drop (groupLength t))

/-- The listing of an image (R235): the walk from index 0. -/
def listing (m : Image) : List ListingEntry := listingFrom m.length 0 m

/-! ### Its text (D27 (c), (d)) -/

/-- A number as at least two uppercase hexadecimal digits. -/
def hexText (n : Nat) : Text :=
  let ds := (Nat.toDigits 16 n).map Char.toUpper
  List.replicate (2 - ds.length) '0' ++ ds

/-- A byte as two uppercase hexadecimal digits (D27 (d)); more where a build's token is wider (log 4). -/
def byteText (b : Byte) : Text := hexText (zext b)

/-- An index as at least two uppercase hexadecimal digits (D27 (c)). -/
def keyText (i : Nat) : Text := hexText i

/-- A token in `to_s` (R238): every sentinel is `halt`. -/
def tokenText : Token → Text
  | .byte b => byteText b
  | .halt => ['h', 'a', 'l', 't']

/-- `LISTING_RENDER` (R9): how a host spells a key, and a token given whether it is the image's last. -/
structure ListingRender where
  key : Nat → Text
  token : Bool → Token → Text

/-- The spelling of D27: the sentinel at `LEN - 1` is `00`, any other is `halt`. -/
def ListingRender.standard : ListingRender where
  key := keyText
  token last t :=
    match t with
    | .byte b => byteText b
    | .halt => if last then ['0', '0'] else ['h', 'a', 'l', 't']

/-- The text of an entry: its tokens joined by single spaces (R235), given `LEN`. -/
def ListingEntry.text (r : ListingRender) (len : Nat) (e : ListingEntry) : Text :=
  [' '].intercalate (e.tokens.zipIdx.map fun (t, j) => r.token (decide (e.index + j + 1 = len)) t)

/-- `to_hash` (R235): key and text of each entry, in order. -/
def toHash (r : ListingRender) (m : Image) : List (Text × Text) :=
  (listing m).map fun e => (r.key e.index, e.text r m.length)

/-- `to_s` (R238): the tokens joined by single spaces. -/
def toS (m : Image) : Text := [' '].intercalate (m.map tokenText)

/-- The comment paired with the entry at a position (R237): under `original`, the comment at the same position, empty
where there is none (D27 (e)); under `fixed`, what the spec does not say (log 17). -/
def commentFor (c : ListingCompat) (source : Text) (comments : List Text) (position : Nat) : Text :=
  match c with
  | .original => comments.getD position []
  | .fixed => Config.fixedComment source position

/-- `to_longform` (R237) of a program loaded from a text: each listing entry with its comment; a comment with no entry
is not shown (D27 (e)). Only the setting `fixed` reads the text (log 17). -/
def toLongform (r : ListingRender) (c : ListingCompat) (source : Text) (l : Loaded) : List (Text × Text × Text) :=
  (listing l.image).zipIdx.map fun (e, position) =>
    (r.key e.index, e.text r l.image.length, commentFor c source l.comments position)

end Sys2Proof.Machine
end

