-- ==== Sys2Proof/Machine/Report.lean ====
section
/-! DEFINITION. The state report and the host's queries (`60_exceptions.md` R230-R233). The values are the state's; the
text of a number is its value in the base, and a free value stands wherever the spec gives no text (log 18). -/

namespace Sys2Proof.Machine

/-- The value of one report line: a number, or no value (no operation yet, no operand, or the sentinel as one). -/
inductive ReportValue where
  | number (v : Int)
  | opcode (op : Opcode)
  | noValue
  | sentinel
  deriving DecidableEq, Repr

/-- One line of a report: which state it shows, and its value. -/
structure ReportLine where
  field : ReportField
  value : ReportValue
  deriving DecidableEq, Repr

/-- The value of an operand view in a report (R233). -/
def operandReportValue : OperandView → ReportValue
  | .absent => .noValue
  | .sentinel => .sentinel
  | .byte b => .number (zext b)

/-- The lines of a report (R233): cycle count, current operation with up to two operands, program counter, index
register, accumulator, and the full register bank, in that order. DESIGN CHOICE (log 18): how the block divides into
lines. R233 lists the current operation and the bank as one item each, and N19 leaves the layout open; here the opcode,
each operand and each register has a line of its own. -/
def reportLines (s : State) : List ReportLine :=
  [⟨.cycles, .number s.cycles⟩,
    ⟨.opcode, match s.curop with
      | none => .noValue
      | some d => .opcode d.op⟩,
    ⟨.operand1, match s.curop with
      | none => .noValue
      | some d => operandReportValue d.o1⟩,
    ⟨.operand2, match s.curop with
      | none => .noValue
      | some d => operandReportValue d.o2⟩,
    ⟨.pc, .number s.pc⟩,
    ⟨.inc, .number s.inc⟩,
    ⟨.acc, .number s.acc⟩] ++
  (List.range s.numRegs).map fun i => ⟨.register i, .number (s.readReg i)⟩

/-- The mnemonic of an opcode (`30_encoding.md` R81): the lowercase hexadecimal spelling of its byte, or `halt`. -/
def opcodeMnemonic : Opcode → Text
  | .b1 => ['b', '1']
  | .b2 => ['b', '2']
  | .b3 => ['b', '3']
  | .c0 => ['c', '0']
  | .c1 => ['c', '1']
  | .c2 => ['c', '2']
  | .c3 => ['c', '3']
  | .c4 => ['c', '4']
  | .c5 => ['c', '5']
  | .c6 => ['c', '6']
  | .d0 => ['d', '0']
  | .d1 => ['d', '1']
  | .d2 => ['d', '2']
  | .halt => ['h', 'a', 'l', 't']

/-- The base in which a report shows a field (R233): the operands of the current operation in hexadecimal always, every
other number in the base requested. -/
def reportBase (fmt : ReportFormat) : ReportField → ReportFormat
  | .operand1 => .hex
  | .operand2 => .hex
  | .cycles => fmt
  | .opcode => fmt
  | .pc => fmt
  | .inc => fmt
  | .acc => fmt
  | .register _ => fmt

/-- The marker of a base (R233): `0x` for hexadecimal, none for decimal. -/
def baseMarker : ReportFormat → Text
  | .decimal => []
  | .hex => ['0', 'x']

/-- The digits of a non-negative number in a base, with no leading zero (R233). Which case the hexadecimal digits have
is open (log 18). -/
def reportDigits : ReportFormat → Nat → Text
  | .decimal, n => Nat.toDigits 10 n
  | .hex, n => (Nat.toDigits 16 n).map (if Config.reportUpperHex then Char.toUpper else id)

/-- The text of a number in a base (R233): the marker and the digits, after `-` for a negative decimal number. How a
negative number is shown in hexadecimal is open (N19). -/
def numberText : ReportFormat → Int → Text
  | fmt, .ofNat n => baseMarker fmt ++ reportDigits fmt n
  | .decimal, .negSucc n => '-' :: (baseMarker .decimal ++ reportDigits .decimal (n + 1))
  | .hex, .negSucc n => Config.reportNegativeHex (.negSucc n)

/-- The text of a report line's value (R233). -/
def ReportLine.valueText (fmt : ReportFormat) (l : ReportLine) : Text :=
  match l.value with
  | .number v => numberText (reportBase fmt l.field) v
  | .opcode op => opcodeMnemonic op
  | .noValue => Config.reportNoValue l.field
  | .sentinel => Config.reportNoValue l.field

/-- The text of a report line (R233): label, then the value in its base. The field's width between them is open (N19). -/
def ReportLine.text (fmt : ReportFormat) (l : ReportLine) : Text :=
  Config.reportLabel l.field ++ Config.reportPad fmt l.field (l.valueText fmt).length ++ l.valueText fmt

/-- `render` (R233): the lines' texts. -/
def render (s : State) (fmt : ReportFormat) : List Text :=
  (reportLines s).map (ReportLine.text fmt)

/-- What the host can read of a core at any time (R232; `10_state.md` R50). -/
structure Queries where
  acc : Int
  inc : Int
  pc : Nat
  registers : List Int
  cycles : Nat
  status : Status
  curop : Option DecodedOp
  deriving DecidableEq, Repr

/-- The host's queries (R232): they read the state and change nothing. -/
def State.queries (s : State) : Queries where
  acc := s.acc
  inc := s.inc
  pc := s.pc
  registers := s.regs
  cycles := s.cycles
  status := s.status
  curop := s.curop

end Sys2Proof.Machine
end

