-- ==== Sys2Proof/Machine/Run.lean ====
section
/-! DEFINITION. The host's run and boot (`44_halt_and_run_loop.md` R198, `70_reset_and_hazards.md` R270) and the trace
(`60_exceptions.md` R230). -/

namespace Sys2Proof.Machine

/-- `k` calls of `step`; the host may stop between any two (`60_exceptions.md` R239). -/
def steps (k : Nat) (s : State) : Host.Outcome State Fault Refusal := Sys2Proof.core.run k s

/-- The run (R198, D25): `step` until `STATUS` is not `Running`. No run is longer than `CYCLE_LIMIT + 1` iterations, and
a `step` of a stopped core changes nothing, so that many steps give the state at the end of the run (log 24). -/
def runToEnd (s : State) : Host.Outcome State Fault Refusal := steps (s.params.cycleLimit + 1) s

/-- How many instructions `k` steps execute: the iterations that leave the core running (R198: each executes exactly
one; R199: a faulting instruction does not count). -/
def executedIn : Nat → State → Nat
  | 0, _ => 0
  | k + 1, s =>
    match step s with
    | .next t => (if t.status = .running then 1 else 0) + executedIn k t
    | .fault _ => 0
    | .refused _ => 0

/-- `k` steps with the trace (R230): with `verbose`, the report's lines after every iteration of a running core. -/
def traced (verbose : Bool) : Nat → State → Host.Outcome State Fault Refusal × List (List ReportLine)
  | 0, s => (.next s, [])
  | k + 1, s =>
    match step s with
    | .next t =>
      let r := traced verbose k t
      (r.1, if verbose && decide (s.status = .running) then reportLines t :: r.2 else r.2)
    | .fault f => (.fault f, [])
    | .refused f => (.refused f, [])

/-- The host's run of a program image: construct the core, then `k` steps, traced where the construction option `verbose`
is true (R230, R250). -/
def hostRun (k : Nat) (p : Params) (m : Image) (o : Options) :
    Except HostError (Host.Outcome State Fault Refusal × List (List ReportLine)) := do
  let s ← construct p m o
  return traced o.verbose k s

/-- The boot sequence up to the first step (R270): build the image from the text, then construct the core. -/
def boot (p : Params) (text : Text) (o : Options) : Except HostError State := do
  let l ← load text
  construct p l.image o

/-- The whole boot sequence (R270): build the image, construct the core, run it to its end (log 24). -/
def bootRun (p : Params) (text : Text) (o : Options) :
    Except HostError (Host.Outcome State Fault Refusal × List (List ReportLine)) := do
  let l ← load text
  hostRun (p.cycleLimit + 1) p l.image o

end Sys2Proof.Machine
end

