-- ==== Sys2Proof/Safety.lean ====
section
/-! DEFINITION. What holds of a core in every iteration, in the terms the statements use. -/

namespace Sys2Proof.Machine

/-- The build's parameters are ones R9 and log 4 admit, the register bank holds `NUM_REGS` registers (`10_state.md` R34),
every data word lies in the range of `DATA_WIDTH` (`00_scope.md` R11, `10_state.md` R37), `PC` and `LEN` keep the bounds of
`PC_WIDTH` (`20_memory.md` R62), and the image is a well-formed memory of the build (`20_memory.md` R60, R62). -/
structure State.DataInv (s : State) : Prop where
  params : s.params.wf = true
  bank : s.numRegs = s.params.numRegs
  acc : fitsWidth s.params.dataWidth s.acc = true
  inc : fitsWidth s.params.dataWidth s.inc = true
  regs : ∀ i, i < s.numRegs → fitsWidth s.params.dataWidth (s.readReg i) = true
  pc : fitsPcWidth s.params.pcWidth s.len s.pc = true
  image : Memory.wf s.params s.image = true

/-- The bytes that are no opcode (`30_encoding.md` R92). -/
def illegalByte (b : Byte) : Prop := Opcode.ofByte? b = none

/-- The view of a `reg` operand 1 out of range: its value, as `use` reads it, is no register number of the bank
(`30_encoding.md` R87, R94). In a bank that has registers the view is then a byte. -/
def State.outOfRangeView (s : State) (o : OperandView) (index : Nat) : Prop :=
  ∃ b : Byte, useByte s .one o = .ok b ∧ zext b = index ∧ s.numRegs ≤ index

/-- The opcode the token at `PC` names, if any. -/
def State.opcodeAtPc? (s : State) : Option Opcode := (s.tok s.pc).bind Opcode.ofToken?

/-- The opcodes with a `reg` operand: those that can raise `RegisterIndexOutOfRange` (`60_exceptions.md` R210, R212). -/
def registerOpcodes : List Opcode := [.b2, .c0, .d0, .d2]

/-- The opcodes with two operands: those that can raise `MissingOperand` (`60_exceptions.md` R210). -/
def twoOperandOpcodes : List Opcode := [.b2, .b3]

/-- The opcodes with an operand: those that can raise `SentinelOperand` (`60_exceptions.md` R210). -/
def operandOpcodes : List Opcode := [.b1, .b2, .b3, .c0, .c1, .d0, .d1, .d2]

/-- What the error a stopped core holds says of its image (`60_exceptions.md` R210-R214): `PC` still points at the
opcode token of the instruction that raised it, that opcode is one that raises the error, and the token or operand the
error names is the one in the image. -/
def State.FaultExplained (s : State) : StepError → Prop
  | .unsupportedOpcode t pc =>
    pc = s.pc ∧ s.tok s.pc = some t ∧ ∃ b, t = .byte b ∧ illegalByte b
  | .registerIndexOutOfRange index pc =>
    pc = s.pc ∧ (∃ op ∈ registerOpcodes, s.opcodeAtPc? = some op) ∧
      s.outOfRangeView (s.view (s.pc + 1)) index
  | .missingOperand pc =>
    pc = s.pc ∧ (∃ op ∈ twoOperandOpcodes, s.opcodeAtPc? = some op) ∧ s.pc + 2 = s.len
  | .sentinelOperand pc .one =>
    pc = s.pc ∧ (∃ op ∈ operandOpcodes, s.opcodeAtPc? = some op) ∧
      s.params.sentinelOperand = .fault ∧ s.view (s.pc + 1) = .sentinel
  | .sentinelOperand pc .two =>
    pc = s.pc ∧ (∃ op ∈ twoOperandOpcodes, s.opcodeAtPc? = some op) ∧
      s.params.sentinelOperand = .fault ∧ s.view (s.pc + 2) = .sentinel

/-- What `STATUS` says of the rest of the state (`44_halt_and_run_loop.md` R191-R200). -/
def State.StatusInv (s : State) : Prop :=
  match s.status with
  | .running => s.cycles ≤ s.params.cycleLimit
  | .halted k =>
    1 ≤ s.cycles ∧ s.cycles ≤ s.params.cycleLimit ∧ s.len ≤ s.pc + 1 ∧ k = s.haltKind
  | .cycleLimitExceeded => s.cycles = s.params.cycleLimit + 1
  | .faulted f =>
    1 ≤ s.cycles ∧ s.cycles ≤ s.params.cycleLimit ∧ s.pc + 1 < s.len ∧ s.FaultExplained f

/-- The invariant of the core: every constructed core has it and every step keeps it. -/
structure State.Inv (s : State) : Prop where
  data : s.DataInv
  status : s.StatusInv

/-- A run that ended without an error (`60_exceptions.md` R210): the final state is neither running nor faulted. A claim
about a program's result takes this as its premise (I10). -/
def endedWithoutError (s : State) : Prop :=
  match s.status with
  | .running => False
  | .halted _ => True
  | .cycleLimitExceeded => True
  | .faulted _ => False

end Sys2Proof.Machine
end

