-- ==== Sys2Proof/Certificates/Slice0/Obligations.lean ====
section
/-! DEFINITION. The statements for the provers. A next state is written out as a record: every field it does not name
keeps its value, so each result statement is the instruction's frame too. -/

open Sys2Proof Sys2Proof.Machine

/-! ## Encoding and decoding -/

/-- One word of each family, written out bit by bit from `spec/opcode_table.json`, decodes to its instruction. -/
def Obligations.SpecWordsDecode : Prop :=
  decodeTokens [.byte 0b10110001, .byte 0b00000101] =
      .ok ⟨.b1 (.byte 5), .byte 5, .absent⟩ ∧
    decodeTokens [.byte 0b10110011, .byte 0b00001011, .byte 0b00010000] =
      .ok ⟨.b3 (.byte 11) (.byte 16), .byte 11, .byte 16⟩ ∧
    decodeTokens [.byte 0b11000000, .byte 0b00001110, .halt] =
      .ok ⟨.c0 (.byte 14), .byte 14, .sentinel⟩ ∧
    decodeTokens [.byte 0b11000010, .byte 0b11000010] =
      .ok ⟨.c2, .byte 0b11000010, .absent⟩ ∧
    decodeTokens [.byte 0b11010010, .byte 0b00000000, .halt] =
      .ok ⟨.d2 (.byte 0), .byte 0, .sentinel⟩ ∧
    decodeTokens [.halt, .byte 0b11000010] = .ok ⟨.halt, .byte 0b11000010, .absent⟩

/-- R83: the opcode map. The opcode tokens are exactly the 14 of the table, each with its format and operand kinds. -/
def Obligations.OpcodeMapIsTheTable : Prop :=
  ∀ (t : Token) (op : Opcode) (f : Format) (ks : List OperandKind),
    (Opcode.ofToken? t = some op ∧ op.format = f ∧ op.operandKinds = ks) ↔
      (t, op, f, ks) ∈
        ([(.byte 0xB1, .b1, .T2, [.addr]), (.byte 0xB2, .b2, .T3, [.reg, .addr]),
          (.byte 0xB3, .b3, .T3, [.val, .addr]), (.byte 0xC0, .c0, .T2, [.reg]),
          (.byte 0xC1, .c1, .T2, [.val]), (.byte 0xC2, .c2, .T1, []), (.byte 0xC3, .c3, .T1, []),
          (.byte 0xC4, .c4, .T1, []), (.byte 0xC5, .c5, .T1, []), (.byte 0xC6, .c6, .T1, []),
          (.byte 0xD0, .d0, .T2, [.reg]), (.byte 0xD1, .d1, .T2, [.val]),
          (.byte 0xD2, .d2, .T2, [.reg]), (.halt, .halt, .T1, [])] :
          List (Token × Opcode × Format × List OperandKind))

/-- R92: the illegal values are the four ranges, 243 values of a byte of this hardware in all (its highest is
0xFF); executing one at `PC` in a running core raises `UnsupportedOpcode(Byte b, PC)`. -/
def Obligations.IllegalBytesRaiseUnsupportedOpcode : Prop :=
  (∀ b : Byte, Opcode.ofByte? b = none ↔
    (b ≤ 0xB0 ∨ (0xB4 ≤ b ∧ b ≤ 0xBF) ∨ (0xC7 ≤ b ∧ b ≤ 0xCF) ∨ 0xD3 ≤ b)) ∧
  ((List.range (2 ^ Params.reference.tokenBits)).filter fun b => (Opcode.ofByte? b).isNone).length = 243 ∧
  ∀ (s : State) (b : Byte), s.status = .running → s.cycles + 1 ≤ s.params.cycleLimit →
    s.pc + 1 < s.len → s.tok s.pc = some (.byte b) → Opcode.ofByte? b = none →
    step s = .next { s with
      cycles := s.cycles + 1
      status := .faulted (.unsupportedOpcode (.byte b) s.pc) }

/-- R89, R90: where `tok(PC)` exists, the decoder reads it and forms the views at `PC+1` and `PC+2`: absent past the end,
the sentinel, or the byte, which has `TOKEN_BITS` bits where the image is one of the build's (R9, R60). The instruction
has the token's opcode and the views its format has. The clause that the decoder answers `.illegal b` for an illegal byte is the
model's (log 7, DEDUCED): R90 has the decoder itself raise `UnsupportedOpcode`, which here the meaning of `.illegal b` does. -/
def Obligations.DecoderReadsPcAndTwoViews : Prop :=
  (∀ (s : State) (i : Nat),
    (s.len ≤ i → s.view i = .absent) ∧
    (s.tok i = some .halt → s.view i = .sentinel) ∧
    (∀ b : Byte, s.tok i = some (.byte b) → s.view i = .byte b) ∧
    (i < s.len → s.view i ≠ .absent) ∧
    (∀ b : Byte, Memory.tokensFit s.params s.image = true → s.view i = .byte b → b < 2 ^ s.params.tokenBits)) ∧
  ∀ (s : State) (t : Token), s.tok s.pc = some t →
    ∃ i : Instr, decodeTokens s.fetchWindow = .ok ⟨i, s.view (s.pc + 1), s.view (s.pc + 2)⟩ ∧
      i.opcode? = Opcode.ofToken? t ∧
      (∀ b : Byte, t = .byte b → Opcode.ofByte? b = none → i = .illegal b) ∧
      (∀ o ∈ i.operands[0]?, o = s.view (s.pc + 1)) ∧ (∀ o ∈ i.operands[1]?, o = s.view (s.pc + 2)) ∧
      (∀ op ∈ i.opcode?, i.operands.length + 1 = op.length)

/-- Decoding the encoding of any well-formed instruction gives it back, whatever tokens follow; an instruction whose last
operand is absent stands at the end of the image. -/
def Obligations.DecodeOfEncode : Prop :=
  ∀ (bits : Nat) (i : Instr) (rest : List Token), i.wellFormed bits = true → (.absent ∈ i.operands → rest = []) →
    decodeTokens (encode i ++ rest) =
      .ok ⟨i, viewOf (encode i ++ rest)[1]?, viewOf (encode i ++ rest)[2]?⟩

/-- What the decoder answers encodes to the tokens it was read from, and is well formed where operand 1 exists and
the tokens are the build's. -/
def Obligations.EncodeOfDecode : Prop :=
  ∀ (ts : List Token) (d : Decoded), decodeTokens ts = .ok d →
    encode d.instr = ts.take (encode d.instr).length ∧
    (2 ≤ ts.length → ∀ bits : Nat, (∀ t ∈ ts, t.fits bits = true) → d.instr.wellFormed bits = true)

/-! ## Branches -/

/-- R111. -/
def Obligations.B1Jumps : Prop :=
  ∀ s : State,
    (∀ b : Byte, exec (.b1 (.byte b)) s = .next { s with pc := b }) ∧
    (s.params.sentinelOperand = .fault →
      exec (.b1 .sentinel) s = .next { s with status := .faulted (.sentinelOperand s.pc .one) })

/-- R113: result, and the exceptions in their order, the address checked whether or not the branch is taken. Here and
below `s.numRegs` is the size of the bank, `NUM_REGS` = 16 on this hardware (R32, D23). -/
def Obligations.B2BranchesIfRegisterEqualsAcc : Prop :=
  ∀ s : State,
    (∀ r a : Byte, r < s.numRegs → exec (.b2 (.byte r) (.byte a)) s =
      .next { s with pc := if s.readReg r = s.acc then a else s.pc + 3 }) ∧
    (∀ addr : OperandView, s.params.sentinelOperand = .fault →
      exec (.b2 .sentinel addr) s =
        .next { s with status := .faulted (.sentinelOperand s.pc .one) }) ∧
    (∀ (r : Byte) (addr : OperandView), s.numRegs ≤ r →
      exec (.b2 (.byte r) addr) s =
        .next { s with status := .faulted (.registerIndexOutOfRange r s.pc) }) ∧
    (∀ r : Byte, r < s.numRegs →
      exec (.b2 (.byte r) .absent) s = .next { s with status := .faulted (.missingOperand s.pc) }) ∧
    (∀ r : Byte, r < s.numRegs → s.params.sentinelOperand = .fault →
      exec (.b2 (.byte r) .sentinel) s =
        .next { s with status := .faulted (.sentinelOperand s.pc .two) })

/-- R114: under a finite width, `b2` compares the n-bit patterns of the two stored words. -/
def Obligations.B2ComparesBitPatterns : Prop :=
  ∀ (s : State) (n : Nat) (r a : Byte), r < s.numRegs →
    s.DataInv → s.params.dataWidth = .finite n →
    exec (.b2 (.byte r) (.byte a)) s =
      .next { s with
        pc := if BitVec.ofInt n (s.readReg r) = BitVec.ofInt n s.acc then a
          else s.pc + 3 }

/-- R116. A negative `ACC`, or one above every immediate of the build (255 on this hardware), never branches. -/
def Obligations.B3BranchesIfAccEqualsImmediate : Prop :=
  ∀ s : State,
    (∀ v a : Byte, exec (.b3 (.byte v) (.byte a)) s =
      .next { s with pc := if s.acc = (v : Int) then a else s.pc + 3 }) ∧
    (∀ v a : Byte, v < 2 ^ s.params.tokenBits → (s.acc < 0 ∨ 2 ^ s.params.tokenBits ≤ s.acc) →
      exec (.b3 (.byte v) (.byte a)) s = .next { s with pc := s.pc + 3 }) ∧
    (∀ addr : OperandView, s.params.sentinelOperand = .fault →
      exec (.b3 .sentinel addr) s =
        .next { s with status := .faulted (.sentinelOperand s.pc .one) }) ∧
    (∀ v : Byte,
      exec (.b3 (.byte v) .absent) s = .next { s with status := .faulted (.missingOperand s.pc) }) ∧
    (∀ v : Byte, s.params.sentinelOperand = .fault →
      exec (.b3 (.byte v) .sentinel) s =
        .next { s with status := .faulted (.sentinelOperand s.pc .two) })

/-- R110, C3: a jump to a target at or past `LEN - 1` ends the run at the next iteration, with `PC` at the target. -/
def Obligations.JumpPastEndHaltsAtTarget : Prop :=
  ∀ (s : State) (a : Byte), s.status = .running → s.cycles + 2 ≤ s.params.cycleLimit →
    s.tok s.pc = some (.byte 0xB1) → s.tok (s.pc + 1) = some (.byte a) → s.len ≤ a + 1 →
    ∃ t k, steps 2 s = .next t ∧ t.status = .halted k ∧ t.pc = a ∧ t.cycles = s.cycles + 2 ∧
      t.acc = s.acc ∧ t.inc = s.inc ∧ t.regs = s.regs

/-! ## Accumulator arithmetic -/

/-- R130. -/
def Obligations.C0AddsRegister : Prop :=
  ∀ s : State,
    (∀ r : Byte, r < s.numRegs → exec (.c0 (.byte r)) s =
      .next { s with
        acc := wrap s.params.dataWidth (s.acc + s.readReg r)
        pc := s.pc + 2 }) ∧
    (∀ r : Byte, s.numRegs ≤ r → exec (.c0 (.byte r)) s =
      .next { s with status := .faulted (.registerIndexOutOfRange r s.pc) }) ∧
    (s.params.sentinelOperand = .fault →
      exec (.c0 .sentinel) s = .next { s with status := .faulted (.sentinelOperand s.pc .one) })

/-- R131. -/
def Obligations.C1AddsImmediate : Prop :=
  ∀ s : State,
    (∀ v : Byte, exec (.c1 (.byte v)) s =
      .next { s with acc := wrap s.params.dataWidth (s.acc + v), pc := s.pc + 2 }) ∧
    (s.params.sentinelOperand = .fault →
      exec (.c1 .sentinel) s = .next { s with status := .faulted (.sentinelOperand s.pc .one) })

/-- R11: `wrap` is the identity at the reference width; at n bits it is the one integer of the signed n-bit range that is
congruent to the value modulo 2^n. -/
def Obligations.WrapIsTheSignedResidue : Prop :=
  (∀ v : Int, wrap .unbounded v = v) ∧
  ∀ (n : Nat) (v w : Int), 9 ≤ n →
    (wrap (.finite n) v = w ↔
      (-2 ^ (n - 1) ≤ w ∧ w < 2 ^ (n - 1)) ∧ (2 : Int) ^ n ∣ w - v)

/-! ## Index operations -/

/-- R140. -/
def Obligations.C2IncrementsIndex : Prop :=
  ∀ s : State, exec .c2 s =
    .next { s with inc := wrap s.params.dataWidth (s.inc + 1), pc := s.pc + 1 }

/-- R141. -/
def Obligations.C3DecrementsIndex : Prop :=
  ∀ s : State, exec .c3 s =
    .next { s with inc := wrap s.params.dataWidth (s.inc - 1), pc := s.pc + 1 }

/-- R142, for every build that R9 admits. -/
def Obligations.C4ClearsIndex : Prop :=
  ∀ s : State, s.params.wf = true → exec .c4 s = .next { s with inc := 0, pc := s.pc + 1 }

/-- R143: `INC` is copied whole; a word that does not fit the width, which no run reaches, is wrapped (R37). -/
def Obligations.C5CopiesIndexToAcc : Prop :=
  ∀ s : State,
    exec .c5 s = .next { s with acc := wrap s.params.dataWidth s.inc, pc := s.pc + 1 } ∧
    (s.DataInv → exec .c5 s = .next { s with acc := s.inc, pc := s.pc + 1 })

/-- R144. -/
def Obligations.C6CopiesAccToIndex : Prop :=
  ∀ s : State,
    exec .c6 s = .next { s with inc := wrap s.params.dataWidth s.acc, pc := s.pc + 1 } ∧
    (s.DataInv → exec .c6 s = .next { s with inc := s.acc, pc := s.pc + 1 })

/-! ## Accumulator moves -/

/-- R160. -/
def Obligations.D0LoadsRegister : Prop :=
  ∀ s : State,
    (∀ r : Byte, r < s.numRegs → exec (.d0 (.byte r)) s =
      .next { s with acc := wrap s.params.dataWidth (s.readReg r), pc := s.pc + 2 }) ∧
    (∀ r : Byte, r < s.numRegs → s.DataInv → exec (.d0 (.byte r)) s =
      .next { s with acc := s.readReg r, pc := s.pc + 2 }) ∧
    (∀ r : Byte, s.numRegs ≤ r → exec (.d0 (.byte r)) s =
      .next { s with status := .faulted (.registerIndexOutOfRange r s.pc) }) ∧
    (s.params.sentinelOperand = .fault →
      exec (.d0 .sentinel) s = .next { s with status := .faulted (.sentinelOperand s.pc .one) })

/-- R163: the immediate is loaded; on every build that R9 admits, an immediate of the build (0..255 on this hardware) is
loaded as it is. -/
def Obligations.D1LoadsImmediate : Prop :=
  ∀ s : State,
    (∀ v : Byte, exec (.d1 (.byte v)) s =
      .next { s with acc := wrap s.params.dataWidth v, pc := s.pc + 2 }) ∧
    (∀ v : Byte, s.params.wf = true → v < 2 ^ s.params.tokenBits → exec (.d1 (.byte v)) s =
      .next { s with acc := (v : Int), pc := s.pc + 2 }) ∧
    (s.params.sentinelOperand = .fault →
      exec (.d1 .sentinel) s = .next { s with status := .faulted (.sentinelOperand s.pc .one) })

/-- R166: the register the operand names becomes `ACC`; every other register keeps its value, and none is created. -/
def Obligations.D2StoresAcc : Prop :=
  ∀ s : State,
    (∀ r : Byte, r < s.numRegs → exec (.d2 (.byte r)) s =
      .next { s with regs := s.regs.set r (wrap s.params.dataWidth s.acc), pc := s.pc + 2 }) ∧
    (∀ r : Byte, r < s.numRegs → s.DataInv → ∃ t, exec (.d2 (.byte r)) s = .next t ∧
      t.numRegs = s.numRegs ∧ t.readReg r = s.acc ∧
      ∀ i : Nat, i ≠ r → t.readReg i = s.readReg i) ∧
    (∀ r : Byte, s.numRegs ≤ r → exec (.d2 (.byte r)) s =
      .next { s with status := .faulted (.registerIndexOutOfRange r s.pc) }) ∧
    (s.params.sentinelOperand = .fault →
      exec (.d2 .sentinel) s = .next { s with status := .faulted (.sentinelOperand s.pc .one) })

/-! ## Halt, illegal bytes, operand forms -/

/-- R180: `halt` moves `PC` to the last token and changes nothing else. -/
def Obligations.HaltJumpsToLastToken : Prop :=
  ∀ s : State, 0 < s.len → exec .halt s = .next { s with pc := s.len - 1 }

/-- Log 6, the model's choice: `halt` executed by hand on an image of no tokens, where no step executes it, stops. -/
def Obligations.HaltOnEmptyImageStops : Prop :=
  ∀ s : State, s.len = 0 → exec .halt s = .fault .haltOnEmptyImage

/-- R180, C7: `halt` costs one iteration and the stop costs the next. -/
def Obligations.HaltStopsAtTheNextIteration : Prop :=
  ∀ s : State, s.status = .running → s.cycles + 2 ≤ s.params.cycleLimit → s.pc + 1 < s.len →
    s.tok s.pc = some .halt →
    ∃ t, steps 2 s = .next t ∧
      t.status =
        .halted (if s.tok (s.len - 1) = some .halt then .atSentinel else .implicitEnd) ∧
      t.pc = s.len - 1 ∧ t.cycles = s.cycles + 2 ∧ t.acc = s.acc ∧ t.inc = s.inc ∧ t.regs = s.regs

/-- R211: the effect of a byte that is no opcode. -/
def Obligations.IllegalByteRaises : Prop :=
  ∀ (s : State) (b : Byte), exec (.illegal b) s =
    .next { s with status := .faulted (.unsupportedOpcode (.byte b) s.pc) }

/-- R94, I6: under `SENTINEL_OPERAND = zero` a used sentinel is used as `Byte 00`, in every operand of every
instruction, and so is in range of every bank that has a register. -/
def Obligations.SentinelReadsAsZeroUnderZeroSetting : Prop :=
  ∀ s : State, s.params.sentinelOperand = .zero →
    exec (.b1 .sentinel) s = exec (.b1 (.byte 0)) s ∧
    (∀ o : OperandView, exec (.b2 .sentinel o) s = exec (.b2 (.byte 0) o) s ∧
      exec (.b2 o .sentinel) s = exec (.b2 o (.byte 0)) s ∧
      exec (.b3 .sentinel o) s = exec (.b3 (.byte 0) o) s ∧
      exec (.b3 o .sentinel) s = exec (.b3 o (.byte 0)) s) ∧
    exec (.c0 .sentinel) s = exec (.c0 (.byte 0)) s ∧
    exec (.c1 .sentinel) s = exec (.c1 (.byte 0)) s ∧
    exec (.d0 .sentinel) s = exec (.d0 (.byte 0)) s ∧
    exec (.d1 .sentinel) s = exec (.d1 (.byte 0)) s ∧
    exec (.d2 .sentinel) s = exec (.d2 (.byte 0)) s

/-- R94: an absent operand 1, which no step executes (R195), raises `MissingOperand` in every instruction that uses one. -/
def Obligations.AbsentOperandOneRaises : Prop :=
  ∀ (s : State) (i : Instr) (o : OperandView),
    i ∈ [Instr.b1 .absent, .b2 .absent o, .b3 .absent o, .c0 .absent, .c1 .absent, .d0 .absent,
      .d1 .absent, .d2 .absent] →
    exec i s = .next { s with status := .faulted (.missingOperand s.pc) }

/-- R89: a view the opcode does not use never causes a fault. A one-token instruction runs whatever stands after it; a
two-token instruction whose operand passes its checks (it is a byte, or the sentinel under `SENTINEL_OPERAND = zero`; a
register number lies in the bank) runs whatever stands after that. Three-token instructions use both views. -/
def Obligations.UnusedViewsNeverFault : Prop :=
  ∀ (s : State) (k : Token) (op : Opcode), s.status = .running →
    s.cycles + 1 ≤ s.params.cycleLimit → s.pc + 1 < s.len → s.tok s.pc = some k →
    Opcode.ofToken? k = some op →
    (op.format = .T1 ∨ (op.format = .T2 ∧ ∃ b : Byte, useByte s .one (s.view (s.pc + 1)) = .ok b ∧
      (op ∈ [Opcode.c0, .d0, .d2] → b < s.numRegs))) →
    ∃ t, step s = .next t ∧ t.status = .running ∧
      t.curop = some ⟨op, s.view (s.pc + 1), s.view (s.pc + 2)⟩

/-! ## Frames over all instructions -/

/-- What no instruction changes, and what an error changes: `STATUS` alone. Every token of the image reads as before, and
the bank keeps its size. -/
def Obligations.InstructionFrame : Prop :=
  ∀ (i : Instr) (s t : State), exec i s = .next t →
    t.cycles = s.cycles ∧ t.curop = s.curop ∧ t.params = s.params ∧ t.len = s.len ∧
    (∀ j, t.tok j = s.tok j) ∧ t.numRegs = s.numRegs ∧
    (t.status = s.status ∨ ∃ f, f.pc = s.pc ∧ t = { s with status := .faulted f })

/-- R33, R35, R36: only `d2` writes a register, and only the one its operand names; only `c0`, `c1`, `c5`, `d0` and
`d1` write `ACC`; only `c2`, `c3`, `c4` and `c6` write `INC`. -/
def Obligations.WritersOfTheDataState : Prop :=
  ∀ (i : Instr) (s t : State), exec i s = .next t →
    (∀ j : Nat, t.readReg j ≠ s.readReg j → ∃ o, i = .d2 o ∧ useReg s .one o = .ok j) ∧
    (t.acc ≠ s.acc → ∃ op ∈ [Opcode.c0, .c1, .c5, .d0, .d1], i.opcode? = some op) ∧
    (t.inc ≠ s.inc → ∃ op ∈ [Opcode.c2, .c3, .c4, .c6], i.opcode? = some op)

/-- R35: at the reference width an instruction makes a non-negative `ACC` negative in only three ways. -/
def Obligations.NegativeAccInThreeWays : Prop :=
  ∀ (i : Instr) (s t : State), s.params.dataWidth = .unbounded → exec i s = .next t → 0 ≤ s.acc →
    t.acc < 0 →
    (i = .c5 ∧ s.inc < 0) ∨
      ∃ o r, (i = .d0 o ∨ i = .c0 o) ∧ useReg s .one o = .ok r ∧ s.readReg r < 0

/-- R42, R43: no instruction reads `CYCLES` or `CUROP`. -/
def Obligations.InstructionsIgnoreCyclesAndCurop : Prop :=
  ∀ (i : Instr) (s : State) (c : Nat) (o : Option DecodedOp),
    exec i { s with cycles := c, curop := o } =
      mapNext (fun t => { t with cycles := c, curop := o }) (exec i s)

/-! ## The run loop -/

/-- R190: a step whose tokens at `PC` decode to a well-formed instruction counts the iteration, runs that instruction,
and records it in `CUROP` unless it raised. -/
def Obligations.StepRunsTheDecodedInstruction : Prop :=
  ∀ (s t : State) (d : Decoded), s.status = .running → s.cycles + 1 ≤ s.params.cycleLimit →
    s.pc + 1 < s.len → decodeTokens s.fetchWindow = .ok d → d.instr.wellFormed s.params.tokenBits = true →
    exec d.instr { s with cycles := s.cycles + 1 } = .next t →
    (t.status = .running → ∀ op, d.instr.opcode? = some op →
      step s = .next { t with curop := some ⟨op, d.o1, d.o2⟩ }) ∧
    (t.status ≠ .running → step s = .next t)

/-- R197: a step of a stopped core changes nothing, and so does any number of them. -/
def Obligations.StoppedCoreNeverMoves : Prop :=
  ∀ (s : State) (k : Nat), s.status ≠ .running → steps k s = .next s

/-- R193: the cycle limit is checked first, and stops the core with its own status. -/
def Obligations.CycleLimitStopsFirst : Prop :=
  ∀ s : State, s.status = .running → s.params.cycleLimit < s.cycles + 1 →
    step s = .next { s with cycles := s.cycles + 1, status := .cycleLimitExceeded }

/-- R192, R196: the missing-next-token rule and the halt kind. -/
def Obligations.MissingNextTokenHalts : Prop :=
  ∀ s : State, s.status = .running → s.cycles + 1 ≤ s.params.cycleLimit → s.len ≤ s.pc + 1 →
    step s = .next { s with
      cycles := s.cycles + 1
      status := .halted
        (if s.pc + 1 = s.len ∧ s.tok (s.len - 1) = some .halt then .atSentinel else .implicitEnd) }

/-- R195, log 6: a step of any state answers a next state; the model's two guards are never reached. -/
def Obligations.EveryStepAnswersNext : Prop :=
  ∀ s : State, ∃ t, step s = .next t

/-- R191: every iteration of a running core adds exactly 1 to `CYCLES`, also the one that stops it; nothing else does. -/
def Obligations.EveryIterationCounts : Prop :=
  ∀ s t : State, step s = .next t →
    t.cycles = if s.status = .running then s.cycles + 1 else s.cycles

/-- R214: an error raised in a step is precise: the state is the one before the instruction but for `CYCLES` and
`STATUS`, and the error points at its opcode token. -/
def Obligations.FaultIsPrecise : Prop :=
  ∀ (s t : State) (f : StepError), s.status = .running → step s = .next t → t.status = .faulted f →
    t = { s with cycles := s.cycles + 1, status := .faulted f } ∧ f.pc = s.pc

/-- R194: `CUROP` after an iteration: the decoded opcode and both views where the core still runs, unchanged where it
stopped or raised. -/
def Obligations.CuropRecordsExecutedInstruction : Prop :=
  ∀ s t : State, s.status = .running → step s = .next t →
    (t.status = .running → ∃ k op, s.tok s.pc = some k ∧ Opcode.ofToken? k = some op ∧
      t.curop = some ⟨op, s.view (s.pc + 1), s.view (s.pc + 2)⟩) ∧
    (t.status ≠ .running → t.curop = s.curop)

/-- R60, R71: no run changes the program image or the parameters. -/
def Obligations.ImageIsImmutable : Prop :=
  ∀ (k : Nat) (s t : State), steps k s = .next t → t.image = s.image ∧ t.params = s.params

/-- R50, R63: a step depends on the image through its length and the tokens at `PC`, `PC+1` and `PC+2` alone. -/
def Obligations.StepReadsAtMostThreeTokens : Prop :=
  ∀ (s : State) (m : Image), m.length = s.len →
    (∀ j, j < 3 → m[s.pc + j]? = s.tok (s.pc + j)) →
    step { s with image := m } = mapNext (fun t => { t with image := m }) (step s)

/-- R40, R231: the core never reads `CUROP`. -/
def Obligations.CoreNeverReadsCurop : Prop :=
  ∀ (s t : State) (c : Option DecodedOp), step s = .next t →
    ∃ c', step { s with curop := c } = .next { t with curop := c' }

/-! ## Runs -/

/-- Every step keeps the invariant of the core: the bank has `NUM_REGS` registers (R34), the data words fit their width
(R37), the image's bytes have `TOKEN_BITS` bits (R60), `PC` and `LEN` keep the bounds of `PC_WIDTH` (R62), and
`STATUS` says of `CYCLES`, `PC` and the image what R191-R200 and R210-R214 say. -/
def Obligations.EveryStepKeepsTheInvariant : Prop :=
  ∀ s t : State, s.Inv → step s = .next t → t.Inv

/-- The state after reset has the invariant. -/
def Obligations.ResetHasTheInvariant : Prop := State.reset.Inv

/-- Every constructed core has the invariant, whatever the build, the options and the program, an image of the build's
tokens, which construction itself does not check (log 3); and so does every booted core (R270), whatever the program
text: the loader makes no other image. -/
def Obligations.ConstructedCoreHasTheInvariant : Prop :=
  (∀ (p : Params) (m : Image) (o : Options) (s : State), Memory.tokensFit p m = true →
    construct p m o = .ok s → s.Inv) ∧
  ∀ (p : Params) (text : Text) (o : Options) (s : State), boot p text o = .ok s → s.Inv

/-- R198: every run ends within `CYCLE_LIMIT + 1` iterations, whatever the program; an iteration that does not stop the
core executes exactly the one instruction at `PC`. -/
def Obligations.EveryRunEndsWithinTheLimit : Prop :=
  (∀ s : State, s.status = .running → s.cycles = 0 →
    ∃ t, steps (s.params.cycleLimit + 1) s = .next t ∧ t.status ≠ .running) ∧
  ∀ s t : State, step s = .next t → t.status = .running →
    ∃ d u, decodeTokens s.fetchWindow = .ok d ∧
      exec d.instr { s with cycles := s.cycles + 1 } = .next u ∧ t = u.recordOp d

/-- R199: the counter's value against the number of instructions executed, from the start of a run. The number is counted
by `executedIn`, which takes an iteration that leaves the core running as one that executed (log 24, DEDUCED from R198
and R199). -/
def Obligations.CyclesCountExecutedInstructions : Prop :=
  ∀ (k : Nat) (s t : State), s.status = .running → s.cycles = 0 → steps k s = .next t →
    (t.status = .running → t.cycles = executedIn k s) ∧
    (∀ h, t.status = .halted h → t.cycles = executedIn k s + 1) ∧
    (∀ f, t.status = .faulted f → t.cycles = executedIn k s + 1) ∧
    (t.status = .cycleLimitExceeded →
      t.cycles = s.params.cycleLimit + 1 ∧ executedIn k s = s.params.cycleLimit)

/-- R285: the cycle budget of a run, with the instructions counted by `executedIn` (log 24, DEDUCED from R198 and
R199). -/
def Obligations.CycleBudget : Prop :=
  ∀ (k : Nat) (s t : State), s.status = .running → s.cycles = 0 → steps k s = .next t →
    executedIn k s ≤ s.params.cycleLimit ∧
    (∀ h, t.status = .halted h → executedIn k s + 1 ≤ s.params.cycleLimit) ∧
    (executedIn k s = s.params.cycleLimit → t.status ≠ .running → t.status = .cycleLimitExceeded)

/-- R62: from a start within the bounds of a finite `PC_WIDTH`, no run makes `PC` reach 2^p: it never wraps. The bound
`TOKEN_BITS` ≤ p, which 8 ≤ p gives on this hardware, is the model's for a wider token (log 4). -/
def Obligations.FinitePcNeverWraps : Prop :=
  ∀ (k p : Nat) (s t : State), s.params.pcWidth = .finite p → 8 ≤ p → s.params.tokenBits ≤ p →
    Memory.tokensFit s.params s.image = true → s.len ≤ 2 ^ p - 2 → s.pc < 2 ^ p →
    steps k s = .next t → t.pc < 2 ^ p

/-- R230: the construction option `verbose` turns the trace on: one report after each iteration of a running core (log
24). It has no effect on the state: a run ends in the same one with the option on and off. -/
def Obligations.TraceHasNoEffect : Prop :=
  (∀ (k : Nat) (p : Params) (m : Image) (o : Options),
    (hostRun k p m { o with verbose := true }).map Prod.fst = (construct p m o).map (steps k) ∧
    (hostRun k p m { o with verbose := false }).map Prod.fst = (construct p m o).map (steps k) ∧
    (∀ r reports, hostRun k p m { o with verbose := false } = .ok (r, reports) → reports = []) ∧
    ∀ s, construct p m o = .ok s →
      hostRun k p m { o with verbose := true } = .ok (steps k s, (traced true k s).2)) ∧
  ∀ (k : Nat) (s t : State), step s = .next t →
    (traced true (k + 1) s).2 =
      if s.status = .running then reportLines t :: (traced true k t).2 else (traced true k t).2

/-! ## Construction and loading -/

/-- R45: the reset table, for every build, program and options that construction accepts; a register holds its last
override, or 0. -/
def Obligations.ConstructionGivesTheResetTable : Prop :=
  ∀ (p : Params) (m : Image) (o : Options) (s : State), construct p m o = .ok s →
    s.pc = o.pc ∧ s.inc = o.inc ∧ s.acc = o.acc ∧ s.cycles = 0 ∧ s.curop = none ∧
    s.status = .running ∧ s.image = m ∧ s.params = p ∧
    s.numRegs = p.numRegs ∧
    ∀ i : Nat, i < p.numRegs → s.readReg i =
      ((o.registers.reverse.find? fun x => decide (x.1 = i)).map Prod.snd).getD 0

/-- Log 9: the machine's reset state is the default construction on the image of no tokens at the reference settings. -/
def Obligations.ResetIsTheDefaultConstruction : Prop :=
  construct Params.reference [] {} = .ok State.reset

/-- R252, R253: construction accepts exactly the configurations within the bounds of the build; else no core is built.
Three parts of the equivalence are the model's choices and no rule's: that a width R9 does not admit is itself refused
(log 13), the bounds of `TOKEN_BITS` and what they ask of a finite width (log 4), and that an image is accepted whatever
its bytes, which construction never checks (log 3). -/
def Obligations.ConstructionAcceptsExactlyWhatFits : Prop :=
  ∀ (p : Params) (m : Image) (o : Options),
    (∃ s, construct p m o = .ok s) ↔
      p.wf = true ∧ fitsPcWidth p.pcWidth m.length o.pc = true ∧
      fitsWidth p.dataWidth o.inc = true ∧ fitsWidth p.dataWidth o.acc = true ∧
      ∀ x ∈ o.registers, x.1 < p.numRegs ∧ fitsWidth p.dataWidth x.2 = true

/-- R262: the final-`00` rewrite touches the last token alone, and only where it is `00`. -/
def Obligations.FinalZeroBecomesTheSentinel : Prop :=
  (∀ ks : List Token, rewriteFinal (ks ++ [.byte 0]) = ks ++ [.halt]) ∧
  (∀ (ks : List Token) (t : Token), t ≠ .byte 0 → rewriteFinal (ks ++ [t]) = ks ++ [t]) ∧
  rewriteFinal [] = []

/-- R91, R261: a text token gives a byte exactly when it is that byte's two hexadecimal digits, each in either case, and
gives the sentinel exactly when it is `halt` in any case. -/
def Obligations.TokenSpellingIgnoresCase : Prop :=
  (∀ (t : Text) (b : Byte),
    tokenOf t = .ok (.byte b) ↔ b < 2 ^ Params.reference.tokenBits ∧ t.map Char.toUpper = byteText b) ∧
  ∀ t : Text, tokenOf t = .ok .halt ↔ t.map Char.toLower = ['h', 'a', 'l', 't']

/-- R238, R260-R263: loading the raw token join of an image of this hardware gives the image back, unless
it ends in a `00` that the loader would rewrite. The comment sequence of the compact form is empty (D27 (e)). -/
def Obligations.LoadingTheRawJoinGivesTheImage : Prop :=
  ∀ m : Image, Memory.tokensFit Params.reference m = true → m.getLast? ≠ some (.byte 0) →
    load (toS m) = .ok ⟨m, []⟩

/-- R266: the long form and the compact form of the same token sequence give the same image, for any lines with
two-digit addresses, words as tokens and comments, each line ended by a newline. R266 speaks of the image alone. The
model's choices: that the two are refused with the same error (log 16), what a line's pattern is in detail (log 15) and
what white space is (log 14). -/
def Obligations.LongAndCompactFormsAgree : Prop :=
  ∀ lines : List ((Char × Char) × List Text × Text),
    (∀ l ∈ lines,
      (hexDigit? l.1.1).isSome = true ∧ (hexDigit? l.1.2).isSome = true ∧
      (∀ w ∈ l.2.1, w ≠ [] ∧ ∀ c ∈ w, isSpace c = false ∧ c ≠ '#') ∧
      '\n' ∉ l.2.2) →
    (load (lines.flatMap fun l =>
        [l.1.1, l.1.2, ':', ' '] ++ [' '].intercalate l.2.1 ++ [' ', '#', ' '] ++ l.2.2 ++ ['\n'])).map
        Loaded.image =
      (load ([' '].intercalate (lines.flatMap fun l => l.2.1))).map Loaded.image

/-! ## Inspection -/

/-- R235, R236: the listing's entries are the image cut into consecutive groups from index 0, each of the length R235
gives its first token, or of the tokens that exist (D27 (b)); and the key of an entry is both the index of its first
token and the number of tokens before it. -/
def Obligations.ListingCutsTheImage : Prop :=
  (∀ (t : Token) (op : Opcode), Opcode.ofToken? t = some op →
    groupLength t =
      if op ∈ [Opcode.b1, .c0, .c1, .d0, .d1, .d2] then 2 else if op ∈ [Opcode.b2, .b3] then 3 else 1) ∧
  (∀ t : Token, Opcode.ofToken? t = none → groupLength t = 1) ∧
  ∀ m : Image,
    (listing m).flatMap ListingEntry.tokens = m ∧
    ∀ (k : Nat) (e : ListingEntry), (listing m)[k]? = some e →
      e.index = (((listing m).take k).flatMap ListingEntry.tokens).length ∧
      ∃ t, m[e.index]? = some t ∧ e.tokens = (m.drop e.index).take (groupLength t)
end

