-- ==== Sys2Proof/Laws/Decode.lean ====
section
/-! SUPPORT. The encoding tables agree with one another (`30_encoding.md` R81-R92). -/

namespace Sys2Proof

/-- A byte outside the 13 names no opcode (R81, R92). -/
theorem Opcode.ofByte?_of_not_mem {b : Byte} (h : b ∉ opcodeBytes) : Opcode.ofByte? b = none := by
  simp only [opcodeBytes, List.mem_cons, List.not_mem_nil, or_false, not_or] at h
  obtain ⟨h1, h2, h3, h4, h5, h6, h7, h8, h9, h10, h11, h12, h13⟩ := h
  rw [Opcode.ofByte?, if_neg h1, if_neg h2, if_neg h3, if_neg h4, if_neg h5, if_neg h6, if_neg h7, if_neg h8,
    if_neg h9, if_neg h10, if_neg h11, if_neg h12, if_neg h13]

/-- Each of the 13 names an opcode, and is that opcode's token (R81, R83). -/
theorem Opcode.ofByte?_of_mem {b : Byte} (h : b ∈ opcodeBytes) :
    ∃ op, Opcode.ofByte? b = some op ∧ op.token = .byte b := by
  simp only [opcodeBytes, List.mem_cons, List.not_mem_nil, or_false] at h
  rcases h with h | h | h | h | h | h | h | h | h | h | h | h | h <;> subst h <;> exact ⟨_, rfl, rfl⟩

/-- A byte names an opcode exactly when it is that opcode's token (R83). -/
theorem Opcode.ofByte?_eq_some_iff (b : Byte) (op : Opcode) :
    Opcode.ofByte? b = some op ↔ op.token = .byte b := by
  constructor
  · intro h
    by_cases hb : b ∈ opcodeBytes
    · obtain ⟨op', h', ht⟩ := Opcode.ofByte?_of_mem hb
      rw [h] at h'
      cases h'
      exact ht
    · rw [Opcode.ofByte?_of_not_mem hb] at h; cases h
  · cases op <;> intro h <;> cases h <;> rfl

/-- The same of a token (R83). -/
theorem Opcode.ofToken?_eq_some_iff (t : Token) (op : Opcode) :
    Opcode.ofToken? t = some op ↔ op.token = t := by
  cases t with
  | byte b => exact Opcode.ofByte?_eq_some_iff b op
  | halt => cases op <;> decide

@[simp] theorem Opcode.ofToken?_token (op : Opcode) : Opcode.ofToken? op.token = some op :=
  (Opcode.ofToken?_eq_some_iff _ _).2 rfl

/-- No two opcodes share a token: no two rows of the opcode map overlap (R83). -/
theorem Opcode.token_injective {a b : Opcode} (h : a.token = b.token) : a = b := by
  have := Opcode.ofToken?_token a
  rw [h, Opcode.ofToken?_token] at this
  exact (Option.some.inj this).symm

/-- The bytes that name no opcode are those outside the 13 (R81, R92). -/
theorem Opcode.ofByte?_eq_none_iff (b : Byte) : Opcode.ofByte? b = none ↔ b ∉ opcodeBytes := by
  refine ⟨fun h hb => ?_, Opcode.ofByte?_of_not_mem⟩
  obtain ⟨op, h', -⟩ := Opcode.ofByte?_of_mem hb
  rw [h] at h'; cases h'

/-- The views of a list of tokens that is the encoding of a view, followed by more only where the view is present. -/
theorem viewOf_tokens (o : OperandView) : viewOf o.tokens[0]? = o := by
  cases o <;> rfl

theorem viewOf_tokens_append (o : OperandView) (h : o.isPresent = true) (rest : List Token) :
    viewOf (o.tokens ++ rest)[0]? = o ∧ (o.tokens ++ rest)[1]? = rest[0]? := by
  cases o with
  | absent => cases h
  | sentinel => exact ⟨rfl, rfl⟩
  | byte b => exact ⟨rfl, rfl⟩

/-- A token that is an opcode's gives that opcode's instruction (R90). -/
@[simp] theorem instrOfToken_token (op : Opcode) (o1 o2 : OperandView) :
    instrOfToken op.token o1 o2 = op.instr o1 o2 := by
  cases op <;> rfl

/-- An instruction built from an opcode has that opcode. -/
@[simp] theorem Opcode.instr_opcode? (op : Opcode) (o1 o2 : OperandView) :
    (op.instr o1 o2).opcode? = some op := by
  cases op <;> rfl

/-- What the decoder answers at a token: its instruction's opcode is the token's (R90). -/
@[simp] theorem instrOfToken_opcode? (t : Token) (o1 o2 : OperandView) :
    (instrOfToken t o1 o2).opcode? = Opcode.ofToken? t := by
  cases t with
  | halt => rfl
  | byte b =>
    simp only [instrOfToken, Opcode.ofToken?]
    cases h : Opcode.ofByte? b with
    | none => rfl
    | some op => exact Opcode.instr_opcode? op o1 o2

end Sys2Proof
end

