-- ==== Sys2Proof/Laws/State.lean ====
section
/-! SUPPORT. One lemma per field per update of `State`, each true by unfolding the update once. -/

namespace Sys2Proof.Machine

/-! ### `State.setPc` -/

@[simp] theorem State.setPc_pc (s : State) (a : Nat) :
    (s.setPc a).pc = a := rfl

@[simp] theorem State.setPc_inc (s : State) (a : Nat) :
    (s.setPc a).inc = s.inc := rfl

@[simp] theorem State.setPc_acc (s : State) (a : Nat) :
    (s.setPc a).acc = s.acc := rfl

@[simp] theorem State.setPc_regs (s : State) (a : Nat) :
    (s.setPc a).regs = s.regs := rfl

@[simp] theorem State.setPc_cycles (s : State) (a : Nat) :
    (s.setPc a).cycles = s.cycles := rfl

@[simp] theorem State.setPc_curop (s : State) (a : Nat) :
    (s.setPc a).curop = s.curop := rfl

@[simp] theorem State.setPc_status (s : State) (a : Nat) :
    (s.setPc a).status = s.status := rfl

@[simp] theorem State.setPc_image (s : State) (a : Nat) :
    (s.setPc a).image = s.image := rfl

@[simp] theorem State.setPc_params (s : State) (a : Nat) :
    (s.setPc a).params = s.params := rfl


/-! ### `State.advance` -/

@[simp] theorem State.advance_pc (s : State) (n : Nat) :
    (s.advance n).pc = s.pc + n := rfl

@[simp] theorem State.advance_inc (s : State) (n : Nat) :
    (s.advance n).inc = s.inc := rfl

@[simp] theorem State.advance_acc (s : State) (n : Nat) :
    (s.advance n).acc = s.acc := rfl

@[simp] theorem State.advance_regs (s : State) (n : Nat) :
    (s.advance n).regs = s.regs := rfl

@[simp] theorem State.advance_cycles (s : State) (n : Nat) :
    (s.advance n).cycles = s.cycles := rfl

@[simp] theorem State.advance_curop (s : State) (n : Nat) :
    (s.advance n).curop = s.curop := rfl

@[simp] theorem State.advance_status (s : State) (n : Nat) :
    (s.advance n).status = s.status := rfl

@[simp] theorem State.advance_image (s : State) (n : Nat) :
    (s.advance n).image = s.image := rfl

@[simp] theorem State.advance_params (s : State) (n : Nat) :
    (s.advance n).params = s.params := rfl


/-! ### `State.writeAcc` -/

@[simp] theorem State.writeAcc_pc (s : State) (v : Int) :
    (s.writeAcc v).pc = s.pc := rfl

@[simp] theorem State.writeAcc_inc (s : State) (v : Int) :
    (s.writeAcc v).inc = s.inc := rfl

@[simp] theorem State.writeAcc_acc (s : State) (v : Int) :
    (s.writeAcc v).acc = wrap s.params.dataWidth v := rfl

@[simp] theorem State.writeAcc_regs (s : State) (v : Int) :
    (s.writeAcc v).regs = s.regs := rfl

@[simp] theorem State.writeAcc_cycles (s : State) (v : Int) :
    (s.writeAcc v).cycles = s.cycles := rfl

@[simp] theorem State.writeAcc_curop (s : State) (v : Int) :
    (s.writeAcc v).curop = s.curop := rfl

@[simp] theorem State.writeAcc_status (s : State) (v : Int) :
    (s.writeAcc v).status = s.status := rfl

@[simp] theorem State.writeAcc_image (s : State) (v : Int) :
    (s.writeAcc v).image = s.image := rfl

@[simp] theorem State.writeAcc_params (s : State) (v : Int) :
    (s.writeAcc v).params = s.params := rfl


/-! ### `State.writeInc` -/

@[simp] theorem State.writeInc_pc (s : State) (v : Int) :
    (s.writeInc v).pc = s.pc := rfl

@[simp] theorem State.writeInc_inc (s : State) (v : Int) :
    (s.writeInc v).inc = wrap s.params.dataWidth v := rfl

@[simp] theorem State.writeInc_acc (s : State) (v : Int) :
    (s.writeInc v).acc = s.acc := rfl

@[simp] theorem State.writeInc_regs (s : State) (v : Int) :
    (s.writeInc v).regs = s.regs := rfl

@[simp] theorem State.writeInc_cycles (s : State) (v : Int) :
    (s.writeInc v).cycles = s.cycles := rfl

@[simp] theorem State.writeInc_curop (s : State) (v : Int) :
    (s.writeInc v).curop = s.curop := rfl

@[simp] theorem State.writeInc_status (s : State) (v : Int) :
    (s.writeInc v).status = s.status := rfl

@[simp] theorem State.writeInc_image (s : State) (v : Int) :
    (s.writeInc v).image = s.image := rfl

@[simp] theorem State.writeInc_params (s : State) (v : Int) :
    (s.writeInc v).params = s.params := rfl


/-! ### `State.writeReg` -/

@[simp] theorem State.writeReg_pc (s : State) (i : Nat) (v : Int) :
    (s.writeReg i v).pc = s.pc := rfl

@[simp] theorem State.writeReg_inc (s : State) (i : Nat) (v : Int) :
    (s.writeReg i v).inc = s.inc := rfl

@[simp] theorem State.writeReg_acc (s : State) (i : Nat) (v : Int) :
    (s.writeReg i v).acc = s.acc := rfl

@[simp] theorem State.writeReg_regs (s : State) (i : Nat) (v : Int) :
    (s.writeReg i v).regs = s.regs.set i (wrap s.params.dataWidth v) := rfl

@[simp] theorem State.writeReg_cycles (s : State) (i : Nat) (v : Int) :
    (s.writeReg i v).cycles = s.cycles := rfl

@[simp] theorem State.writeReg_curop (s : State) (i : Nat) (v : Int) :
    (s.writeReg i v).curop = s.curop := rfl

@[simp] theorem State.writeReg_status (s : State) (i : Nat) (v : Int) :
    (s.writeReg i v).status = s.status := rfl

@[simp] theorem State.writeReg_image (s : State) (i : Nat) (v : Int) :
    (s.writeReg i v).image = s.image := rfl

@[simp] theorem State.writeReg_params (s : State) (i : Nat) (v : Int) :
    (s.writeReg i v).params = s.params := rfl


/-! ### `State.countIteration` -/

@[simp] theorem State.countIteration_pc (s : State) :
    (s.countIteration).pc = s.pc := rfl

@[simp] theorem State.countIteration_inc (s : State) :
    (s.countIteration).inc = s.inc := rfl

@[simp] theorem State.countIteration_acc (s : State) :
    (s.countIteration).acc = s.acc := rfl

@[simp] theorem State.countIteration_regs (s : State) :
    (s.countIteration).regs = s.regs := rfl

@[simp] theorem State.countIteration_cycles (s : State) :
    (s.countIteration).cycles = s.cycles + 1 := rfl

@[simp] theorem State.countIteration_curop (s : State) :
    (s.countIteration).curop = s.curop := rfl

@[simp] theorem State.countIteration_status (s : State) :
    (s.countIteration).status = s.status := rfl

@[simp] theorem State.countIteration_image (s : State) :
    (s.countIteration).image = s.image := rfl

@[simp] theorem State.countIteration_params (s : State) :
    (s.countIteration).params = s.params := rfl


/-! ### `State.stop` -/

@[simp] theorem State.stop_pc (s : State) (st : Status) :
    (s.stop st).pc = s.pc := rfl

@[simp] theorem State.stop_inc (s : State) (st : Status) :
    (s.stop st).inc = s.inc := rfl

@[simp] theorem State.stop_acc (s : State) (st : Status) :
    (s.stop st).acc = s.acc := rfl

@[simp] theorem State.stop_regs (s : State) (st : Status) :
    (s.stop st).regs = s.regs := rfl

@[simp] theorem State.stop_cycles (s : State) (st : Status) :
    (s.stop st).cycles = s.cycles := rfl

@[simp] theorem State.stop_curop (s : State) (st : Status) :
    (s.stop st).curop = s.curop := rfl

@[simp] theorem State.stop_status (s : State) (st : Status) :
    (s.stop st).status = st := rfl

@[simp] theorem State.stop_image (s : State) (st : Status) :
    (s.stop st).image = s.image := rfl

@[simp] theorem State.stop_params (s : State) (st : Status) :
    (s.stop st).params = s.params := rfl


/-! ### `State.raise` -/

@[simp] theorem State.raise_pc (s : State) (f : StepError) :
    (s.raise f).pc = s.pc := rfl

@[simp] theorem State.raise_inc (s : State) (f : StepError) :
    (s.raise f).inc = s.inc := rfl

@[simp] theorem State.raise_acc (s : State) (f : StepError) :
    (s.raise f).acc = s.acc := rfl

@[simp] theorem State.raise_regs (s : State) (f : StepError) :
    (s.raise f).regs = s.regs := rfl

@[simp] theorem State.raise_cycles (s : State) (f : StepError) :
    (s.raise f).cycles = s.cycles := rfl

@[simp] theorem State.raise_curop (s : State) (f : StepError) :
    (s.raise f).curop = s.curop := rfl

@[simp] theorem State.raise_status (s : State) (f : StepError) :
    (s.raise f).status = .faulted f := rfl

@[simp] theorem State.raise_image (s : State) (f : StepError) :
    (s.raise f).image = s.image := rfl

@[simp] theorem State.raise_params (s : State) (f : StepError) :
    (s.raise f).params = s.params := rfl


/-! ### `State.placeAtPc` -/

@[simp] theorem State.placeAtPc_pc (s : State) (ts : List Token) :
    (s.placeAtPc ts).pc = s.pc := rfl

@[simp] theorem State.placeAtPc_inc (s : State) (ts : List Token) :
    (s.placeAtPc ts).inc = s.inc := rfl

@[simp] theorem State.placeAtPc_acc (s : State) (ts : List Token) :
    (s.placeAtPc ts).acc = s.acc := rfl

@[simp] theorem State.placeAtPc_regs (s : State) (ts : List Token) :
    (s.placeAtPc ts).regs = s.regs := rfl

@[simp] theorem State.placeAtPc_cycles (s : State) (ts : List Token) :
    (s.placeAtPc ts).cycles = if s.cycles < s.params.cycleLimit then s.cycles else 0 := rfl

@[simp] theorem State.placeAtPc_curop (s : State) (ts : List Token) :
    (s.placeAtPc ts).curop = s.curop := rfl

@[simp] theorem State.placeAtPc_status (s : State) (ts : List Token) :
    (s.placeAtPc ts).status = .running := rfl

@[simp] theorem State.placeAtPc_image (s : State) (ts : List Token) :
    (s.placeAtPc ts).image = Memory.place s.image s.pc ts := rfl

@[simp] theorem State.placeAtPc_params (s : State) (ts : List Token) :
    (s.placeAtPc ts).params = s.params := rfl

/-! ### `State.recordOp`: it writes `CUROP` alone, and only while the core runs -/

@[simp] theorem State.recordOp_pc (d : Decoded) (s : State) :
    (s.recordOp d).pc = s.pc := by
  unfold State.recordOp; split <;> rfl

@[simp] theorem State.recordOp_inc (d : Decoded) (s : State) :
    (s.recordOp d).inc = s.inc := by
  unfold State.recordOp; split <;> rfl

@[simp] theorem State.recordOp_acc (d : Decoded) (s : State) :
    (s.recordOp d).acc = s.acc := by
  unfold State.recordOp; split <;> rfl

@[simp] theorem State.recordOp_regs (d : Decoded) (s : State) :
    (s.recordOp d).regs = s.regs := by
  unfold State.recordOp; split <;> rfl

@[simp] theorem State.recordOp_cycles (d : Decoded) (s : State) :
    (s.recordOp d).cycles = s.cycles := by
  unfold State.recordOp; split <;> rfl

@[simp] theorem State.recordOp_status (d : Decoded) (s : State) :
    (s.recordOp d).status = s.status := by
  unfold State.recordOp; split <;> rfl

@[simp] theorem State.recordOp_image (d : Decoded) (s : State) :
    (s.recordOp d).image = s.image := by
  unfold State.recordOp; split <;> rfl

@[simp] theorem State.recordOp_params (d : Decoded) (s : State) :
    (s.recordOp d).params = s.params := by
  unfold State.recordOp; split <;> rfl

theorem State.recordOp_curop (d : Decoded) (s : State) :
    (s.recordOp d).curop = if s.status = .running then recordedOp d else s.curop := by
  unfold State.recordOp; split <;> rfl

/-! ### What the derived reads of a state depend on -/

theorem State.len_congr {s t : State} (h : t.image = s.image) : t.len = s.len := by
  simp [State.len, h]

theorem State.tok_congr {s t : State} (h : t.image = s.image) (i : Nat) : t.tok i = s.tok i := by
  simp [State.tok, h]

theorem State.view_congr {s t : State} (h : t.image = s.image) (i : Nat) : t.view i = s.view i := by
  simp [State.view, State.tok_congr h]

theorem State.numRegs_congr {s t : State} (h : t.regs = s.regs) : t.numRegs = s.numRegs := by
  simp [State.numRegs, h]

theorem State.readReg_congr {s t : State} (h : t.regs = s.regs) (i : Nat) :
    t.readReg i = s.readReg i := by
  simp [State.readReg, h]

theorem State.haltKind_congr {s t : State} (hi : t.image = s.image) (hp : t.pc = s.pc) :
    t.haltKind = s.haltKind := by
  simp [State.haltKind, State.len_congr hi, State.tok_congr hi, hp]

end Sys2Proof.Machine
end

