-- ==== Sys2Proof/Laws/Ops.lean ====
section
/-! SUPPORT. What each shared operation can do, said once: `wrap`, the register file, the image, the operand checks,
ending an instruction. -/

namespace Sys2Proof.Machine

/-! ### `wrap` (`00_scope.md` R11) -/

@[simp] theorem wrap_unbounded (v : Int) : wrap .unbounded v = v := rfl

theorem two_pow_pred {n : Nat} (h : 0 < n) : (2 : Int) ^ n = 2 * 2 ^ (n - 1) := by
  obtain ⟨k, rfl⟩ := Nat.exists_eq_succ_of_ne_zero h.ne'
  simp [pow_succ, mul_comm]

/-- A wrapped value lies in the signed range. -/
theorem fitsWidth_wrap_finite {n : Nat} (h : 0 < n) (v : Int) :
    fitsWidth (.finite n) (wrap (.finite n) v) = true := by
  have hp : (0 : Int) < 2 ^ (n - 1) := by positivity
  have h2 := two_pow_pred h
  have hlo := Int.emod_nonneg (v + 2 ^ (n - 1)) (b := 2 ^ n) (by omega)
  have hhi := Int.emod_lt_of_pos (v + 2 ^ (n - 1)) (b := 2 ^ n) (by omega)
  refine decide_eq_true ⟨?_, ?_⟩ <;> simp only [wrap] <;> omega

/-- A value in the signed range is its own wrap. -/
theorem wrap_eq_of_fits {w : Width} (hw : w ≠ .finite 0) {v : Int} (h : fitsWidth w v = true) :
    wrap w v = v := by
  cases w with
  | unbounded => rfl
  | finite n =>
    have hn : 0 < n := by
      rcases Nat.eq_zero_or_pos n with rfl | hn
      · exact absurd rfl hw
      · exact hn
    have h2 := two_pow_pred hn
    simp only [fitsWidth, decide_eq_true_eq] at h
    have he : (v + 2 ^ (n - 1)) % 2 ^ n = v + 2 ^ (n - 1) := Int.emod_eq_of_lt (by omega) (by omega)
    simp only [wrap, he]
    omega

/-- A wrapped value is congruent to the value. -/
theorem wrap_finite_emod (n : Nat) (v : Int) : wrap (.finite n) v % 2 ^ n = v % 2 ^ n := by
  simp only [wrap]
  rw [Int.sub_emod, Int.emod_emod, ← Int.sub_emod]
  congr 1
  ring

/-- The parameters a build admits are never a width of no bits. -/
theorem Params.wf_dataWidth {p : Params} (h : p.wf = true) : p.dataWidth ≠ .finite 0 := by
  intro h0
  simp [Params.wf, Params.dataWidthOk, h0] at h

/-- An immediate of the build is its own wrap: no operand turns negative (D1). -/
theorem wrap_operand {p : Params} (h : p.wf = true) {v : Nat} (hv : v < 2 ^ p.tokenBits) :
    wrap p.dataWidth v = v := by
  refine wrap_eq_of_fits (Params.wf_dataWidth h) ?_
  cases hd : p.dataWidth with
  | unbounded => rfl
  | finite n =>
    have hn : 9 ≤ n ∧ p.tokenBits < n := by
      simp only [Params.wf, Params.dataWidthOk, hd, Bool.and_eq_true, decide_eq_true_eq] at h
      exact h.1.2
    have h2 : 2 ^ p.tokenBits ≤ 2 ^ (n - 1) := Nat.pow_le_pow_right (by omega) (by omega)
    have h3 : (v : Int) < 2 ^ (n - 1) := by exact_mod_cast Nat.lt_of_lt_of_le hv h2
    exact decide_eq_true ⟨by omega, h3⟩

theorem fitsWidth_wrap {p : Params} (h : p.wf = true) (v : Int) :
    fitsWidth p.dataWidth (wrap p.dataWidth v) = true := by
  cases hd : p.dataWidth with
  | unbounded => rfl
  | finite n =>
    refine fitsWidth_wrap_finite (Nat.pos_of_ne_zero ?_) v
    rintro rfl
    exact Params.wf_dataWidth h hd

/-! ### The register file -/

/-- A read after a write of the same register gives the value written, wrapped. -/
theorem State.readReg_writeReg_same (s : State) {i : Nat} (h : i < s.numRegs) (v : Int) :
    (s.writeReg i v).readReg i = wrap s.params.dataWidth v := by
  have h' : i < s.regs.length := h
  simp [State.readReg, h']

/-- A write leaves every other register alone. -/
theorem State.readReg_writeReg_ne (s : State) {i j : Nat} (h : j ≠ i) (v : Int) :
    (s.writeReg i v).readReg j = s.readReg j := by
  simp [State.readReg, List.getD_eq_getElem?_getD, List.getElem?_set_ne h.symm]

/-- A write creates no register (`10_state.md` R34). -/
@[simp] theorem State.numRegs_writeReg (s : State) (i : Nat) (v : Int) : (s.writeReg i v).numRegs = s.numRegs := by
  simp [State.numRegs]

/-! ### The image as a memory (`20_memory.md` R60, R71) -/

/-- No operation that an instruction or the run loop uses changes the image, so each keeps its form. -/
theorem Memory.wf_of_image_eq {s t : State} (hi : t.image = s.image) (hp : t.params = s.params)
    (h : Memory.wf s.params s.image = true) : Memory.wf t.params t.image = true := by
  rw [hi, hp]; exact h

/-- The reset image has the form. -/
theorem Memory.wf_reset : Memory.wf State.reset.params State.reset.image = true := rfl

/-- An operand byte of an image of the build's tokens has `TOKEN_BITS` bits. -/
theorem State.view_byte_lt {s : State} (h : Memory.tokensFit s.params s.image = true) {i : Nat} {b : Byte}
    (hv : s.view i = .byte b) : b < 2 ^ s.params.tokenBits := by
  have hf : ∀ t ∈ s.image, Token.fits s.params.tokenBits t = true := List.all_eq_true.1 h
  cases ht : s.tok i with
  | none => simp [State.view, ht, viewOf] at hv
  | some t =>
    have hm := hf t (List.mem_of_getElem? ht)
    cases t with
    | halt => simp [State.view, ht, viewOf] at hv
    | byte c =>
      simp only [State.view, ht, viewOf, OperandView.byte.injEq] at hv
      subst hv
      simpa [Token.fits] using hm

/-- Placing tokens puts token `k` of them at index `i + k`. -/
theorem Memory.place_get (m : Image) (i : Nat) (ts : List Token) {k : Nat} (h : k < ts.length) :
    (Memory.place m i ts)[i + k]? = ts[k]? := by
  have hl : (m.take i ++ List.replicate (i - m.length) (Token.byte 0)).length = i := by
    simp; omega
  rw [Memory.place, List.append_assoc, List.getElem?_append_right (by omega), hl, Nat.add_sub_cancel_left,
    List.getElem?_append_left h]

/-- Placing tokens leaves the tokens below them alone. -/
theorem Memory.place_get_below (m : Image) {i j : Nat} (ts : List Token) (hj : j < i) (hm : j < m.length) :
    (Memory.place m i ts)[j]? = m[j]? := by
  simp [Memory.place, List.getElem?_append, hj, hm]

/-- Placing tokens leaves the tokens above them alone. -/
theorem Memory.place_get_above (m : Image) {i j : Nat} (ts : List Token) (hj : i + ts.length ≤ j) :
    (Memory.place m i ts)[j]? = m[j]? := by
  have hl : (m.take i ++ List.replicate (i - m.length) (Token.byte 0) ++ ts).length = i + ts.length := by
    simp; omega
  rw [Memory.place, List.getElem?_append_right (by omega), hl, List.getElem?_drop]
  congr 1; omega

/-- Placing tokens of the build keeps the form where the last of them stays under the bound of `PC_WIDTH` (R62). -/
theorem Memory.wf_place {p : Params} {m : Image} {i : Nat} {ts : List Token} (h : Memory.wf p m = true)
    (ht : Memory.tokensFit p ts = true) (hb : ∀ w, p.pcWidth = .finite w → i + ts.length ≤ 2 ^ w - 2) :
    Memory.wf p (Memory.place m i ts) = true := by
  obtain ⟨hf, hl⟩ := Bool.and_eq_true_iff.1 h
  refine Bool.and_eq_true_iff.2 ⟨?_, ?_⟩
  · refine List.all_eq_true.2 fun t hm => ?_
    simp only [Memory.place, List.mem_append, List.mem_replicate] at hm
    rcases hm with ((hm | ⟨-, rfl⟩) | hm) | hm
    · exact List.all_eq_true.1 hf t (List.mem_of_mem_take hm)
    · simp [Token.fits]
    · exact List.all_eq_true.1 ht t hm
    · exact List.all_eq_true.1 hf t (List.mem_of_mem_drop hm)
  · cases hw : p.pcWidth with
    | unbounded => rfl
    | finite w =>
      have hp := hb w hw
      have hm : m.length ≤ 2 ^ w - 2 := by simpa [fitsPcLength, hw] using hl
      simp only [fitsPcLength, Memory.place, decide_eq_true_eq, List.length_append, List.length_take,
        List.length_replicate, List.length_drop]
      omega

/-! ### Fetch and decode (`30_encoding.md` R89, R90) -/

/-- Where `tok(PC)` exists, the decoder answers the instruction of that token with the views at `PC+1` and `PC+2`. -/
theorem decodeTokens_fetchWindow {s : State} {t : Token} (h : s.tok s.pc = some t) :
    decodeTokens s.fetchWindow =
      .ok ⟨instrOfToken t (s.view (s.pc + 1)) (s.view (s.pc + 2)), s.view (s.pc + 1), s.view (s.pc + 2)⟩ := by
  have h0 : s.fetchWindow[0]? = some t := by
    simpa [State.fetchWindow, List.getElem?_take, List.getElem?_drop, State.tok] using h
  cases hw : s.fetchWindow with
  | nil => simp [hw] at h0
  | cons a rest =>
    have h1 : ∀ k, k < 2 → rest[k]? = s.tok (s.pc + (k + 1)) := by
      intro k hk
      have : s.fetchWindow[k + 1]? = s.tok (s.pc + (k + 1)) := by
        simp [State.fetchWindow, List.getElem?_take, List.getElem?_drop, State.tok, hk]
      simpa [hw] using this
    have ha : a = t := by simpa [hw] using h0
    simp only [decodeTokens, h1 0 (by omega), h1 1 (by omega), ha]
    rfl

/-- An index below `LEN` holds a token. -/
theorem State.tok_of_present {s : State} {i : Nat} (h : s.present i) : ∃ t, s.tok i = some t :=
  ⟨s.image[i], List.getElem?_eq_getElem h⟩

/-! ### Ending an instruction -/

/-- All that `complete` can do: the state the checks gave, or the error's effects. -/
theorem complete_cases (s : State) (r : Except StepError State) :
    (∃ t, r = .ok t ∧ complete s r = .next t) ∨
      (∃ f, r = .error f ∧ complete s r = .next (s.raise f)) := by
  cases r with
  | ok t => exact .inl ⟨t, rfl, rfl⟩
  | error f => exact .inr ⟨f, rfl, rfl⟩

@[simp] theorem complete_ok (s t : State) : complete s (.ok t) = .next t := rfl

@[simp] theorem complete_error (s : State) (f : StepError) :
    complete s (.error f) = .next (s.raise f) := rfl

@[simp] theorem bind_ok {α β : Type} (a : α) (k : α → Except StepError β) :
    ((Except.ok a : Except StepError α) >>= k) = k a := rfl

@[simp] theorem bind_error {α β : Type} (f : StepError) (k : α → Except StepError β) :
    ((Except.error f : Except StepError α) >>= k) = .error f := rfl

@[simp] theorem pure_eq_ok {α : Type} (a : α) : (pure a : Except StepError α) = .ok a := rfl

theorem mapNext_eq_next {f : State → State} {r : Host.Outcome State Fault Refusal} {t : State}
    (h : mapNext f r = .next t) : ∃ u, r = .next u ∧ t = f u := by
  cases r with
  | next u => exact ⟨u, rfl, by cases h; rfl⟩
  | fault _ => cases h
  | refused _ => cases h

/-! ### The operand checks (`30_encoding.md` R94) -/

section Use
variable (s : State) (n : OperandNo)

@[simp] theorem useByte_byte (b : Byte) : useByte s n (.byte b) = .ok b := rfl

@[simp] theorem useByte_absent : useByte s n .absent = .error (.missingOperand s.pc) := rfl

theorem useByte_sentinel_fault (h : s.params.sentinelOperand = .fault) :
    useByte s n .sentinel = .error (.sentinelOperand s.pc n) := by
  simp [useByte, h]

theorem useByte_sentinel_zero (h : s.params.sentinelOperand = .zero) :
    useByte s n .sentinel = .ok 0 := by
  simp [useByte, h]

/-- All that the shared checks can do. -/
theorem useByte_cases (o : OperandView) :
    (∃ b, o = .byte b ∧ useByte s n o = .ok b) ∨
      (o = .sentinel ∧ s.params.sentinelOperand = .zero ∧ useByte s n o = .ok 0) ∨
      (o = .sentinel ∧ s.params.sentinelOperand = .fault ∧
        useByte s n o = .error (.sentinelOperand s.pc n)) ∨
      (o = .absent ∧ useByte s n o = .error (.missingOperand s.pc)) := by
  cases o with
  | absent => simp
  | byte b => simp
  | sentinel =>
    cases h : s.params.sentinelOperand
    · simp [useByte_sentinel_fault s n h]
    · simp [useByte_sentinel_zero s n h]

@[simp] theorem useVal_byte (b : Byte) : useVal s n (.byte b) = .ok b := rfl

@[simp] theorem useAddr_byte (b : Byte) : useAddr s n (.byte b) = .ok b := rfl

theorem useReg_byte (b : Byte) (h : b < s.numRegs) : useReg s n (.byte b) = .ok b := by
  simp only [useReg, useByte_byte]; exact if_pos h

theorem useReg_byte_out (b : Byte) (h : s.numRegs ≤ b) :
    useReg s n (.byte b) = .error (.registerIndexOutOfRange b s.pc) := by
  simp only [useReg, useByte_byte]; exact if_neg (Nat.not_lt.2 h)

/-- A register number that `use` lets through lies in the bank: no register read is ever out of it (`10_state.md` R34). -/
theorem useReg_lt {s : State} {n : OperandNo} {o : OperandView} {r : Nat} (h : useReg s n o = .ok r) : r < s.numRegs := by
  unfold useReg at h
  split at h
  · split at h
    · cases h; assumption
    · cases h
  · cases h

/-- An error of the shared checks is the error of every kind. -/
theorem use_error {o : OperandView} {f : StepError} (h : useByte s n o = .error f) :
    useVal s n o = .error f ∧ useAddr s n o = .error f ∧ useReg s n o = .error f := by
  simp [useVal, useAddr, useReg, h]

/-- Under `SENTINEL_OPERAND = zero` the sentinel is used as `Byte 00` (I6). -/
theorem use_sentinel_zero (h : s.params.sentinelOperand = .zero) :
    useVal s n .sentinel = useVal s n (.byte 0) ∧ useAddr s n .sentinel = useAddr s n (.byte 0) ∧
      useReg s n .sentinel = useReg s n (.byte 0) := by
  simp [useVal, useAddr, useReg, useByte_sentinel_zero s n h]

end Use

end Sys2Proof.Machine
end

