-- ==== Sys2Proof/Laws/Exec.lean ====
section
/-! SUPPORT. All that an instruction can do to the state, said once for every instruction. -/

namespace Sys2Proof.Machine

/-- The state an instruction leaves when it does not raise: `PC`, `ACC`, `INC` and the registers may differ, nothing else
does. -/
structure State.SameRun (s t : State) : Prop where
  cycles : t.cycles = s.cycles
  curop : t.curop = s.curop
  status : t.status = s.status
  image : t.image = s.image
  params : t.params = s.params

theorem State.branch_sameRun (s : State) (taken : Bool) (a : Nat) : s.SameRun (s.branch taken a) := by
  cases taken <;> exact ⟨rfl, rfl, rfl, rfl, rfl⟩

/-- What an instruction on which the operand checks decide can do. -/
theorem complete_bind_cases {α : Type} (s : State) (r : Except StepError α) (k : α → Except StepError State) :
    (∃ a, r = .ok a ∧ complete s (r >>= k) = complete s (k a)) ∨
      (∃ f, r = .error f ∧ complete s (r >>= k) = .next (s.raise f)) := by
  cases r with
  | ok a => exact .inl ⟨a, rfl, rfl⟩
  | error f => exact .inr ⟨f, rfl, rfl⟩

/-- All that `exec` can do: raise an error, or change the data state and `PC` alone, or, for `halt` on an image of no
tokens, stop. -/
theorem exec_cases (i : Instr) (s : State) :
    (∃ f, exec i s = .next (s.raise f)) ∨ (∃ t, exec i s = .next t ∧ s.SameRun t) ∨
      (i = .halt ∧ s.len = 0 ∧ exec i s = .fault .haltOnEmptyImage) := by
  cases i with
  | b1 addr =>
    obtain ⟨a, _, h⟩ | ⟨f, _, h⟩ := complete_bind_cases s (useAddr s .one addr) fun a => pure (s.setPc a)
    · exact .inr (.inl ⟨_, h, ⟨rfl, rfl, rfl, rfl, rfl⟩⟩)
    · exact .inl ⟨f, h⟩
  | b2 reg addr =>
    obtain ⟨r, _, h⟩ | ⟨f, _, h⟩ := complete_bind_cases s (useReg s .one reg) fun r => do
      let a ← useAddr s .two addr
      return s.branch (decide (s.regEqualsAcc r)) a
    · obtain ⟨a, _, h'⟩ | ⟨f, _, h'⟩ := complete_bind_cases s (useAddr s .two addr) fun a =>
        pure (s.branch (decide (s.regEqualsAcc r)) a)
      · exact .inr (.inl ⟨_, h.trans h', s.branch_sameRun _ _⟩)
      · exact .inl ⟨f, h.trans h'⟩
    · exact .inl ⟨f, h⟩
  | b3 val addr =>
    obtain ⟨v, _, h⟩ | ⟨f, _, h⟩ := complete_bind_cases s (useVal s .one val) fun v => do
      let a ← useAddr s .two addr
      return s.branch (decide (s.accEqualsVal v)) a
    · obtain ⟨a, _, h'⟩ | ⟨f, _, h'⟩ := complete_bind_cases s (useAddr s .two addr) fun a =>
        pure (s.branch (decide (s.accEqualsVal v)) a)
      · exact .inr (.inl ⟨_, h.trans h', s.branch_sameRun _ _⟩)
      · exact .inl ⟨f, h.trans h'⟩
    · exact .inl ⟨f, h⟩
  | c0 reg =>
    obtain ⟨r, _, h⟩ | ⟨f, _, h⟩ := complete_bind_cases s (useReg s .one reg) fun r =>
      pure ((s.writeAcc (s.acc + s.readReg r)).advance 2)
    · exact .inr (.inl ⟨_, h, ⟨rfl, rfl, rfl, rfl, rfl⟩⟩)
    · exact .inl ⟨f, h⟩
  | c1 val =>
    obtain ⟨v, _, h⟩ | ⟨f, _, h⟩ := complete_bind_cases s (useVal s .one val) fun v =>
      pure ((s.writeAcc (s.acc + v)).advance 2)
    · exact .inr (.inl ⟨_, h, ⟨rfl, rfl, rfl, rfl, rfl⟩⟩)
    · exact .inl ⟨f, h⟩
  | c2 => exact .inr (.inl ⟨_, rfl, ⟨rfl, rfl, rfl, rfl, rfl⟩⟩)
  | c3 => exact .inr (.inl ⟨_, rfl, ⟨rfl, rfl, rfl, rfl, rfl⟩⟩)
  | c4 => exact .inr (.inl ⟨_, rfl, ⟨rfl, rfl, rfl, rfl, rfl⟩⟩)
  | c5 => exact .inr (.inl ⟨_, rfl, ⟨rfl, rfl, rfl, rfl, rfl⟩⟩)
  | c6 => exact .inr (.inl ⟨_, rfl, ⟨rfl, rfl, rfl, rfl, rfl⟩⟩)
  | d0 reg =>
    obtain ⟨r, _, h⟩ | ⟨f, _, h⟩ := complete_bind_cases s (useReg s .one reg) fun r =>
      pure ((s.writeAcc (s.readReg r)).advance 2)
    · exact .inr (.inl ⟨_, h, ⟨rfl, rfl, rfl, rfl, rfl⟩⟩)
    · exact .inl ⟨f, h⟩
  | d1 val =>
    obtain ⟨v, _, h⟩ | ⟨f, _, h⟩ := complete_bind_cases s (useVal s .one val) fun v =>
      pure ((s.writeAcc v).advance 2)
    · exact .inr (.inl ⟨_, h, ⟨rfl, rfl, rfl, rfl, rfl⟩⟩)
    · exact .inl ⟨f, h⟩
  | d2 reg =>
    obtain ⟨r, _, h⟩ | ⟨f, _, h⟩ := complete_bind_cases s (useReg s .one reg) fun r =>
      pure ((s.writeReg r s.acc).advance 2)
    · exact .inr (.inl ⟨_, h, ⟨rfl, rfl, rfl, rfl, rfl⟩⟩)
    · exact .inl ⟨f, h⟩
  | halt =>
    cases hl : s.len with
    | zero => exact .inr (.inr ⟨rfl, rfl, by simp [exec, execHalt, hl]⟩)
    | succ last =>
      exact .inr (.inl ⟨s.setPc last, by simp [exec, execHalt, hl], ⟨rfl, rfl, rfl, rfl, rfl⟩⟩)
  | illegal b => exact .inl ⟨_, rfl⟩

/-- At the reference width `c1` never lowers `ACC` (the last sentence of `10_state.md` R35, where R131 bears it out). -/
theorem execC1_acc_le {val : OperandView} {s t : State} (hw : s.params.dataWidth = .unbounded)
    (h : execC1 val s = .next t) : s.acc ≤ t.acc := by
  unfold execC1 at h
  cases hv : useVal s .one val with
  | ok v =>
    rw [hv, bind_ok, pure_eq_ok, complete_ok] at h
    cases h
    simp [hw]
  | error f =>
    rw [hv, bind_error, complete_error] at h
    cases h
    exact le_rfl

/-- At the reference width `d1` never makes `ACC` negative (R163); it may lower it (log 19). -/
theorem execD1_acc_nonneg {val : OperandView} {s t : State} (hw : s.params.dataWidth = .unbounded)
    (h : execD1 val s = .next t) : t.acc = s.acc ∨ 0 ≤ t.acc := by
  unfold execD1 at h
  cases hv : useVal s .one val with
  | ok v =>
    rw [hv, bind_ok, pure_eq_ok, complete_ok] at h
    cases h
    right
    simp [hw]
  | error f =>
    rw [hv, bind_error, complete_error] at h
    cases h
    exact .inl rfl

end Sys2Proof.Machine
end

