-- ==== Sys2Proof/Laws/PerInstr.lean ====
section
/-! SUPPORT. Facts about every instruction as syntax, one lemma per constructor. -/

namespace Sys2Proof.Laws.EncodeLength

/-- The encoding of an instruction whose operands are all present has the length its format gives (`30_encoding.md`
R82, R86); an illegal byte is one token. -/
def Statement (i : Instr) : Prop :=
  i.operands.all OperandView.isPresent = true →
    (encode i).length = (i.opcode?.map Opcode.length).getD 1

theorem length_of_present {o : OperandView} (h : o.isPresent = true) : o.tokens.length = 1 := by
  cases o with
  | absent => cases h
  | sentinel => rfl
  | byte b => rfl

theorem one {t : Token} {o : OperandView} (h : o.isPresent = true) : (t :: o.tokens).length = 2 := by
  simp [length_of_present h]

theorem two {t : Token} {o o' : OperandView} (h : o.isPresent = true) (h' : o'.isPresent = true) :
    (t :: (o.tokens ++ o'.tokens)).length = 3 := by
  simp [length_of_present h, length_of_present h']

theorem b1 (addr : OperandView) : Statement (.b1 addr) := fun h => one (by simpa [Instr.operands] using h)

theorem b2 (reg addr : OperandView) : Statement (.b2 reg addr) := fun h => by
  have h' : reg.isPresent = true ∧ addr.isPresent = true := by simpa [Instr.operands] using h
  exact two h'.1 h'.2

theorem b3 (val addr : OperandView) : Statement (.b3 val addr) := fun h => by
  have h' : val.isPresent = true ∧ addr.isPresent = true := by simpa [Instr.operands] using h
  exact two h'.1 h'.2

theorem c0 (reg : OperandView) : Statement (.c0 reg) := fun h => one (by simpa [Instr.operands] using h)

theorem c1 (val : OperandView) : Statement (.c1 val) := fun h => one (by simpa [Instr.operands] using h)

theorem c2 : Statement .c2 := fun _ => rfl

theorem c3 : Statement .c3 := fun _ => rfl

theorem c4 : Statement .c4 := fun _ => rfl

theorem c5 : Statement .c5 := fun _ => rfl

theorem c6 : Statement .c6 := fun _ => rfl

theorem d0 (reg : OperandView) : Statement (.d0 reg) := fun h => one (by simpa [Instr.operands] using h)

theorem d1 (val : OperandView) : Statement (.d1 val) := fun h => one (by simpa [Instr.operands] using h)

theorem d2 (reg : OperandView) : Statement (.d2 reg) := fun h => one (by simpa [Instr.operands] using h)

theorem halt : Statement .halt := fun _ => rfl

theorem illegal (b : Byte) : Statement (.illegal b) := fun _ => rfl

end Sys2Proof.Laws.EncodeLength
end

