-- ==== Sys2Proof/Laws/Step.lean ====
section
/-! SUPPORT. All that a step can do, said once (`44_halt_and_run_loop.md` R190). -/

namespace Sys2Proof.Machine

/-- A stopped core does not move (R197). -/
theorem step_stopped {s : State} (h : s.status ≠ .running) : step s = .next s := by
  simp [step, iterate, h]

/-- The cycle limit stops a running core first (R193). -/
theorem step_limit {s : State} (hr : s.status = .running) (hl : s.params.cycleLimit < s.cycles + 1) :
    step s = .next (s.countIteration.stop .cycleLimitExceeded) := by
  simp [step, iterate, runningIteration, hr, State.overCycleLimit, hl]

/-- Then the missing next token does (R192). -/
theorem step_missing_next {s : State} (hr : s.status = .running) (hl : s.cycles + 1 ≤ s.params.cycleLimit)
    (hp : s.len ≤ s.pc + 1) : step s = .next (s.countIteration.stop (.halted s.haltKind)) := by
  have h1 : ¬ s.countIteration.overCycleLimit := by simp [State.overCycleLimit]; omega
  have h2 : ¬ s.countIteration.present (s.countIteration.pc + 1) := by
    simp only [State.present, State.countIteration_pc, State.len_congr (s := s) (t := s.countIteration) rfl]
    omega
  simp only [step, iterate, hr, if_true, runningIteration, h1, if_false, h2,
    State.haltKind_congr (s := s) (t := s.countIteration) rfl rfl]

/-- Otherwise the instruction at `PC` executes, and `CUROP` records it if it did not raise (R190, R194). -/
theorem step_executes {s : State} (hr : s.status = .running) (hl : s.cycles + 1 ≤ s.params.cycleLimit)
    (hp : s.pc + 1 < s.len) {d : Decoded} (hd : decodeTokens s.fetchWindow = .ok d) :
    step s = mapNext (State.recordOp d) (exec d.instr s.countIteration) := by
  have h1 : ¬ s.countIteration.overCycleLimit := by simp [State.overCycleLimit]; omega
  have h2 : s.countIteration.present (s.countIteration.pc + 1) := hp
  have hw : s.countIteration.fetchWindow = s.fetchWindow := rfl
  simp only [step, iterate, hr, if_true, runningIteration, h1, if_false, h2, decodeAndExecute, hw, hd]

/-- All that a step can do, from any state. -/
theorem step_cases (s : State) :
    (s.status ≠ .running ∧ step s = .next s) ∨
    (s.status = .running ∧ s.params.cycleLimit < s.cycles + 1 ∧
      step s = .next (s.countIteration.stop .cycleLimitExceeded)) ∨
    (s.status = .running ∧ s.cycles + 1 ≤ s.params.cycleLimit ∧ s.len ≤ s.pc + 1 ∧
      step s = .next (s.countIteration.stop (.halted s.haltKind))) ∨
    (s.status = .running ∧ s.cycles + 1 ≤ s.params.cycleLimit ∧ s.pc + 1 < s.len ∧
      ∃ t, s.tok s.pc = some t ∧
        let o1 := s.view (s.pc + 1)
        let o2 := s.view (s.pc + 2)
        step s = mapNext (State.recordOp ⟨instrOfToken t o1 o2, o1, o2⟩)
          (exec (instrOfToken t o1 o2) s.countIteration)) := by
  by_cases hr : s.status = .running
  · by_cases hl : s.params.cycleLimit < s.cycles + 1
    · exact .inr (.inl ⟨hr, hl, step_limit hr hl⟩)
    · have hl' : s.cycles + 1 ≤ s.params.cycleLimit := by omega
      by_cases hp : s.len ≤ s.pc + 1
      · exact .inr (.inr (.inl ⟨hr, hl', hp, step_missing_next hr hl' hp⟩))
      · have hp' : s.pc + 1 < s.len := by omega
        obtain ⟨t, ht⟩ := State.tok_of_present (s := s) (i := s.pc) (by omega : s.pc < s.len)
        exact .inr (.inr (.inr ⟨hr, hl', hp', t, ht,
          step_executes hr hl' hp' (decodeTokens_fetchWindow ht)⟩))
  · exact .inl ⟨hr, step_stopped hr⟩

end Sys2Proof.Machine
end

