-- ==== Sys2Proof/Laws/Run.lean ====
section
/-! SUPPORT. The run of several steps, one step at a time (`44_halt_and_run_loop.md` R198). -/

namespace Sys2Proof.Machine

@[simp] theorem steps_zero (s : State) : steps 0 s = .next s := rfl

/-- `k + 1` steps that answer a next state are one step and then `k`. -/
theorem steps_succ_of_step {s u : State} (h : step s = .next u) (k : Nat) : steps (k + 1) s = steps k u := by
  have h' : Sys2Proof.core.step s = .next u := h
  simp only [steps, Host.Core.run, h']
  rfl

/-- The other way: from `k + 1` steps, the first step and the rest. -/
theorem steps_succ_cases {k : Nat} {s t : State} (h : steps (k + 1) s = .next t) :
    ∃ u, step s = .next u ∧ steps k u = .next t := by
  cases hs : Sys2Proof.core.step s with
  | next u => exact ⟨u, hs, by simpa only [steps, Host.Core.run, hs] using h⟩
  | fault r => simp only [steps, Host.Core.run, hs] at h; cases h
  | refused r => simp only [steps, Host.Core.run, hs] at h; cases h

/-- Counting executed instructions one step at a time (R199). -/
theorem executedIn_succ_of_step {s u : State} (h : step s = .next u) (k : Nat) :
    executedIn (k + 1) s = (if u.status = .running then 1 else 0) + executedIn k u := by
  simp only [executedIn, h]

/-- Package an induction over a run once: what every step keeps holds at the end of any number of steps. -/
theorem steps_induction {P : State → Prop} (hstep : ∀ s t, P s → step s = .next t → P t) :
    ∀ (k : Nat) (s t : State), P s → steps k s = .next t → P t := by
  intro k
  induction k with
  | zero => intro s t hs h; cases h; exact hs
  | succ k ih =>
    intro s t hs h
    obtain ⟨u, h1, h2⟩ := steps_succ_cases h
    exact ih u t (hstep s u hs h1) h2

end Sys2Proof.Machine
end

