-- ==== Sys2Proof/Tests/Slice0.lean ====
section
/-! SUPPORT. The model's own tests. Expected values come from `spec/95_test_vectors.md` (named V-…, S…), from the opcode
table's encodings, or from the rule named. The last section shows, for each statement with hypotheses, a state and
operands that meet them. -/

namespace Sys2Proof.Tests

open Sys2Proof.Machine

/-- A core at reset with a program image. -/
def onImage (m : Image) : State := { State.reset with image := m }

/-- What a step leaves in one part of the state; none where it stops. -/
def after {α : Type} (f : State → α) (r : Host.Outcome State Fault Refusal) : Option α :=
  match r with
  | .next t => some (f t)
  | .fault _ => none
  | .refused _ => none

/-- The parts of a state most rules name. -/
def view4 (s : State) : Nat × Int × Int × Status := (s.pc, s.inc, s.acc, s.status)

/-- The values of a loaded text. -/
def loadText (t : String) : Except HostError Loaded := load t.toList

/-! ### Well-formedness: each check refuses an ill-formed term -/

theorem test_absent_operand_one_is_ill_formed :
    ([Instr.b1 .absent, .b2 .absent (.byte 4), .b3 .absent (.byte 4), .c0 .absent, .c1 .absent,
      .d0 .absent, .d1 .absent, .d2 .absent].all fun i => !i.wellFormed 8) = true := by decide

theorem test_opcode_byte_is_no_illegal_byte :
    (opcodeBytes.all fun b => !(Instr.illegal b).wellFormed 8) = true := by decide

theorem test_wide_byte_is_ill_formed :
    ([Instr.b1 (.byte 256), .b2 .sentinel (.byte 256), .b2 (.byte 256) .absent, .b3 (.byte 0) (.byte 256),
      .b3 (.byte 256) .absent, .c0 (.byte 256), .c1 (.byte 256), .d0 (.byte 256), .d1 (.byte 256), .d2 (.byte 256),
      .illegal 256].all fun i => !i.wellFormed 8 && i.wellFormed 9) = true := by decide

theorem test_out_of_range_register_is_well_formed : (Instr.d2 (.byte 0xFF)).wellFormed 8 = true := by
  decide

/-! ### Decoding: words from the table's encodings -/

theorem test_decode_b1 : (decodeTokens [.byte 0b10110001, .byte 0x03, .byte 0xC2]) =
    .ok ⟨.b1 (.byte 3), .byte 3, .byte 0xC2⟩ := by decide
theorem test_decode_b2 : (decodeTokens [.byte 0b10110010, .byte 0x05, .byte 0x04]) =
    .ok ⟨.b2 (.byte 5) (.byte 4), .byte 5, .byte 4⟩ := by decide
theorem test_decode_b2_cut_short : (decodeTokens [.byte 0b10110010, .byte 0x03]) =
    .ok ⟨.b2 (.byte 3) .absent, .byte 3, .absent⟩ := by decide
theorem test_decode_b3 : (decodeTokens [.byte 0b10110011, .byte 0x0B, .byte 0x10]) =
    .ok ⟨.b3 (.byte 11) (.byte 16), .byte 11, .byte 16⟩ := by decide
theorem test_decode_c0 : (decodeTokens [.byte 0b11000000, .byte 0x0E]) =
    .ok ⟨.c0 (.byte 14), .byte 14, .absent⟩ := by decide
theorem test_decode_c1 : (decodeTokens [.byte 0b11000001, .byte 0xFF, .halt]) =
    .ok ⟨.c1 (.byte 255), .byte 255, .sentinel⟩ := by decide
theorem test_decode_c2 : (decodeTokens [.byte 0b11000010, .halt]) =
    .ok ⟨.c2, .sentinel, .absent⟩ := by decide
theorem test_decode_c3 : (decodeTokens [.byte 0b11000011, .halt]) =
    .ok ⟨.c3, .sentinel, .absent⟩ := by decide
theorem test_decode_c4 : (decodeTokens [.byte 0b11000100, .byte 0xD1, .byte 0]) =
    .ok ⟨.c4, .byte 0xD1, .byte 0⟩ := by decide
theorem test_decode_c5 : (decodeTokens [.byte 0b11000101, .halt]) =
    .ok ⟨.c5, .sentinel, .absent⟩ := by decide
theorem test_decode_c6 : (decodeTokens [.byte 0b11000110, .halt]) =
    .ok ⟨.c6, .sentinel, .absent⟩ := by decide
theorem test_decode_d0 : (decodeTokens [.byte 0b11010000, .byte 0x03, .halt]) =
    .ok ⟨.d0 (.byte 3), .byte 3, .sentinel⟩ := by decide
theorem test_decode_d1 : (decodeTokens [.byte 0b11010001, .byte 0x00, .byte 0xD2]) =
    .ok ⟨.d1 (.byte 0), .byte 0, .byte 0xD2⟩ := by decide
theorem test_decode_d2 : (decodeTokens [.byte 0b11010010, .halt]) =
    .ok ⟨.d2 .sentinel, .sentinel, .absent⟩ := by decide
theorem test_decode_halt : (decodeTokens [.halt, .byte 0xC2]) =
    .ok ⟨.halt, .byte 0xC2, .absent⟩ := by decide
theorem test_decode_illegal : (decodeTokens [.byte 0x00, .byte 0xC2, .halt]) =
    .ok ⟨.illegal 0, .byte 0xC2, .sentinel⟩ := by decide
theorem test_decode_refuses_no_token : decodeTokens [] = .error .noToken := by decide

theorem test_table_word_b3 : decodeTableWord 8 0xB3 = some (.b3 (.byte 0) (.byte 0)) := by decide
theorem test_table_word_with_operands :
    decodeTableWord 24 0x100BB3 = some (.b3 (.byte 0x0B) (.byte 0x10)) := by decide
theorem test_table_word_halt : decodeTableWord 0 0 = some .halt := by decide
theorem test_table_word_illegal : decodeTableWord 8 0 = some (.illegal 0) := by decide
theorem test_table_word_runs_first_after_reset :
    after view4 (step (State.reset.withFetchWord 8 0xC3)) = some (1, -1, 0, .running) := by decide

/-! ### Instructions: one step -/

/-- V-BR-2. -/
theorem test_b1_jumps :
    after view4 (step (onImage [.byte 0xB1, .byte 4, .byte 0xC2, .byte 0xC2, .halt])) =
      some (4, 0, 0, .running) := by decide
/-- V-BR-3. -/
theorem test_b1_sentinel_operand_faults :
    after (fun t => (t.pc, t.cycles, t.status)) (step (onImage [.byte 0xB1, .halt])) =
      some (0, 1, .faulted (.sentinelOperand 0 .one)) := by decide
/-- V-BR-6: signed equality. -/
theorem test_b2_taken_on_equal_negatives :
    after view4 (step { onImage [.byte 0xB2, .byte 2, .byte 4, .byte 0xC2, .halt] with
      acc := -3, regs := State.reset.regs.set 2 (-3) }) = some (4, 0, -3, .running) := by decide
/-- V-BR-10: the register check on operand 1 comes before the presence check on operand 2. -/
theorem test_b2_register_check_comes_first :
    after (fun t => t.status) (step (onImage [.byte 0xB2, .byte 0x10])) =
      some (.faulted (.registerIndexOutOfRange 0x10 0)) := by decide
/-- V-BR-14: the immediate 0xFF is 255. -/
theorem test_b3_immediate_is_not_negative :
    after view4 (step { onImage [.byte 0xB3, .byte 0xFF, .byte 4, .byte 0xC2, .halt] with acc := -1 }) =
      some (3, 0, -1, .running) := by decide
/-- V-BR-15. -/
theorem test_b3_missing_operand_faults :
    after (fun t => t.status) (step (onImage [.byte 0xB3, .byte 5])) =
      some (.faulted (.missingOperand 0)) := by decide
/-- V-AR-1. -/
theorem test_c0_adds_a_negative_register :
    after view4 (step { onImage [.byte 0xC0, .byte 3, .halt] with
      acc := 5, regs := State.reset.regs.set 3 (-7) }) = some (2, 0, -2, .running) := by decide
/-- V-AR-3. -/
theorem test_c0_register_out_of_range :
    after (fun t => t.status) (step (onImage [.byte 0xC0, .byte 0x1F, .halt])) =
      some (.faulted (.registerIndexOutOfRange 0x1F 0)) := by decide
/-- V-AR-5: no 8-bit wrap. -/
theorem test_c1_adds_past_255 :
    after view4 (step { onImage [.byte 0xC1, .byte 0xFF, .halt] with acc := 5 }) =
      some (2, 0, 260, .running) := by decide
/-- V-AR-8: at `DATA_WIDTH = 9`, 256 wraps to -256. -/
theorem test_c1_wraps_at_nine_bits :
    after view4 (step { onImage [.byte 0xC1, .byte 1, .halt] with
      acc := 255, params := { Params.reference with dataWidth := .finite 9 } }) =
      some (2, 0, -256, .running) := by decide
/-- V-AR-7z: `SENTINEL_OPERAND = zero`. -/
theorem test_sentinel_reads_as_zero :
    after (fun t => (t.acc, t.pc, t.curop)) (step { onImage [.byte 0xC1, .halt] with
      acc := 4, params := { Params.reference with sentinelOperand := .zero } }) =
      some (4, 2, some ⟨.c1, .sentinel, .absent⟩) := by decide
/-- V-IX-1: an unused sentinel view is recorded and does not fault. -/
theorem test_c2_increments_across_zero :
    after (fun t => (view4 t, t.curop)) (step { onImage [.byte 0xC2, .halt] with inc := -1 }) =
      some ((1, 0, 0, .running), some ⟨.c2, .sentinel, .absent⟩) := by decide
/-- V-IX-7. -/
theorem test_c2_wraps_at_nine_bits :
    after view4 (step { onImage [.byte 0xC2, .halt] with
      inc := 255, params := { Params.reference with dataWidth := .finite 9 } }) =
      some (1, -256, 0, .running) := by decide
/-- V-IX-2. -/
theorem test_c3_goes_negative :
    after view4 (step (onImage [.byte 0xC3, .halt])) = some (1, -1, 0, .running) := by decide
/-- V-IX-3. -/
theorem test_c4_clears :
    after view4 (step { onImage [.byte 0xC4, .halt] with inc := 42, acc := 7 }) =
      some (1, 0, 7, .running) := by decide
/-- V-IX-4. -/
theorem test_c5_copies_index :
    after view4 (step { onImage [.byte 0xC5, .halt] with inc := -5, acc := 9 }) =
      some (1, -5, -5, .running) := by decide
/-- V-IX-5. -/
theorem test_c6_copies_acc :
    after view4 (step { onImage [.byte 0xC6, .halt] with inc := 1, acc := 200 }) =
      some (1, 200, 200, .running) := by decide
/-- V-MV-1. -/
theorem test_d0_loads_negative :
    after view4 (step { onImage [.byte 0xD0, .byte 3, .halt] with
      acc := 17, regs := State.reset.regs.set 3 (-4) }) = some (2, 0, -4, .running) := by decide
/-- V-MV-3. -/
theorem test_d1_loads_unsigned :
    after view4 (step { onImage [.byte 0xD1, .byte 0xFF, .halt] with acc := -1 }) =
      some (2, 0, 255, .running) := by decide
/-- Program P1 at index 0x04, `ACC <- 0` over the 7 of index 0x00: R163 against the last sentence of R35 (log 19). -/
theorem test_d1_can_lower_acc :
    after view4 (step { onImage [.byte 0xD1, .byte 7, .byte 0xD2, .byte 1, .byte 0xD1, .byte 0, .byte 0xD2, .byte 2] with
      pc := 4, acc := 7 }) = some (6, 0, 0, .running) := by decide
/-- V-MV-5: the highest register. -/
theorem test_d2_stores_in_r15 :
    after (fun t => (t.regs, t.acc, t.pc)) (step { onImage [.byte 0xD2, .byte 0x0F, .halt] with acc := -9 }) =
      some (List.replicate 15 0 ++ [-9], -9, 2) := by decide
/-- V-MV-8: nothing is written. -/
theorem test_d2_register_out_of_range :
    after (fun t => (t.regs, t.status)) (step { onImage [.byte 0xD2, .byte 0xFF, .halt] with acc := 1 }) =
      some (State.reset.regs, .faulted (.registerIndexOutOfRange 0xFF 0)) := by decide
/-- D23: on a build of four registers, number 4 is out of range. -/
theorem test_bank_of_four_registers :
    after (fun t => (t.regs, t.status)) (step { onImage [.byte 0xD2, .byte 4, .halt] with
      acc := 1, regs := [0, 0, 0, 0], params := { Params.reference with numRegs := 4 } }) =
      some ([0, 0, 0, 0], .faulted (.registerIndexOutOfRange 4 0)) := by decide
/-- R180's worked example, the second step. -/
theorem test_halt_jumps_to_the_last_token :
    after (fun t => (view4 t, t.curop))
      (step { onImage [.byte 0xC2, .halt, .byte 0xC2, .byte 0xC2, .halt] with pc := 1, inc := 1 }) =
      some ((4, 1, 0, .running), some ⟨.halt, .byte 0xC2, .byte 0xC2⟩) := by decide
/-- V-RL-13, the second step: a precise fault keeps `CUROP`. -/
theorem test_illegal_byte_is_precise :
    after (fun t => (t.pc, t.inc, t.cycles, t.curop, t.status))
      (step { onImage [.byte 0xC2, .byte 0xC7, .halt] with
        pc := 1, inc := 1, cycles := 1, curop := some ⟨.c2, .byte 0xC7, .sentinel⟩ }) =
      some (1, 1, 2, some ⟨.c2, .byte 0xC7, .sentinel⟩, .faulted (.unsupportedOpcode (.byte 0xC7) 1)) := by
  decide

/-! ### The run loop -/

/-- V-RL-1. -/
theorem test_empty_program_ends_implicitly :
    after (fun t => (t.pc, t.cycles, t.status)) (step State.reset) = some (0, 1, .halted .implicitEnd) := by
  decide
/-- S1, the last step. -/
theorem test_stop_at_the_sentinel :
    after (fun t => (t.pc, t.cycles, t.status))
      (step { onImage [.byte 0xC2, .byte 0xC2, .byte 0xC2, .halt] with pc := 3, cycles := 3 }) =
      some (3, 4, .halted .atSentinel) := by decide
/-- V-RL-5, the last step: the limit check comes before the halt check. -/
theorem test_limit_check_comes_first :
    after (fun t => (t.cycles, t.status)) (step { onImage [.byte 0xC2, .halt] with pc := 1, cycles := 1000 }) =
      some (1001, .cycleLimitExceeded) := by decide

/-! ### Loader, construction, listing -/

/-- S4: the operand `00` before the final `00` stays a byte. -/
theorem test_load_compact : loadText "C0 0E D2 00 00" =
    .ok ⟨[.byte 0xC0, .byte 0x0E, .byte 0xD2, .byte 0, .halt], []⟩ := by decide
/-- V-RL-14, V-RL-15: case. -/
theorem test_load_ignores_case : loadText "c2 C2 Halt" = .ok ⟨[.byte 0xC2, .byte 0xC2, .halt], []⟩ := by
  decide
/-- R261: each digit in its own case. -/
theorem test_token_of_mixed_case : tokenOf ['a', 'B'] = .ok (.byte 0xAB) ∧ tokenOf ['A', 'b'] = .ok (.byte 0xAB) := by
  decide
/-- V-LD-1. -/
theorem test_load_refuses_three_digits :
    loadText "C2 0B1 00" = .error (.malformedProgram "0B1".toList) := by decide
/-- V-LD-5. -/
theorem test_load_long_form : loadText "00: C2 C2 # two\n02: C2 # third\n03: 00 # end" =
    .ok ⟨[.byte 0xC2, .byte 0xC2, .byte 0xC2, .halt], ["two".toList, "third".toList, "end".toList]⟩ := by
  decide
/-- V-LD-7. -/
theorem test_load_compact_with_newline_is_malformed :
    loadText "C2 C2 C2 00\n" = .error (.malformedProgram "C2 C2 C2 00".toList) := by decide
/-- V-LD-3. -/
theorem test_construct_refuses_position_16 :
    construct Params.reference [.byte 0xC2, .byte 0xC2] { registers := [(16, 1)] } =
      .error (.registerIndexOutOfRange 16) := by decide
/-- V-LD-4: the later override wins. -/
theorem test_construct_later_override_wins :
    (construct Params.reference [] { registers := [(3, 1), (3, 2)] }).toOption.map
      (fun s => s.readReg 3) = some 2 := by decide
/-- R230: with `verbose` the run of `C2 C2` traces its two iterations, and without it none; 1 is `INC` after the first. -/
theorem test_verbose_turns_the_trace_on :
    ((hostRun 3 Params.reference [.byte 0xC2, .byte 0xC2] { verbose := true }).toOption.map fun r =>
      r.2.map fun lines => lines[5]?) =
      some [some ⟨.inc, .number 1⟩, some ⟨.inc, .number 1⟩] ∧
    ((hostRun 3 Params.reference [.byte 0xC2, .byte 0xC2] {}).toOption.map fun r => r.2.length) = some 0 := by
  decide
/-- S5. -/
theorem test_to_hash :
    toHash .standard [.byte 0xC2, .byte 0xD2, .byte 1, .byte 0xB3, .byte 5, .byte 6, .halt] =
      [("00".toList, "C2".toList), ("01".toList, "D2 01".toList), ("03".toList, "B3 05 06".toList),
        ("06".toList, "00".toList)] := by decide
/-- V-LS-3, V-LS-4. -/
theorem test_to_hash_corners :
    toHash .standard [.byte 0xC2, .byte 0xB3, .byte 5] =
      [("00".toList, "C2".toList), ("01".toList, "B3 05".toList)] ∧
    toHash .standard [.byte 0xC2, .halt, .byte 0xC2, .halt] =
      [("00".toList, "C2".toList), ("01".toList, "halt".toList), ("02".toList, "C2".toList),
        ("03".toList, "00".toList)] := by decide
/-- V-LS-1. -/
theorem test_to_s : toS [.byte 0xC2, .byte 0xC2, .byte 0xC2, .halt] = "C2 C2 C2 halt".toList := by decide
/-- V-LS-6: the source's drift. -/
theorem test_to_longform_pairs_by_position :
    (toLongform .standard .original [] ⟨[.byte 0xC2, .byte 0xC2, .byte 0xC2, .halt],
      ["two".toList, "third".toList, "end".toList]⟩).map (fun e => e.2.2) =
      ["two".toList, "third".toList, "end".toList, []] := by decide
/-- R233: the order of the report's lines and a value in each base's line. -/
theorem test_report_values :
    (reportLines { State.reset with acc := -4, curop := some ⟨.c2, .sentinel, .absent⟩ }).take 7 =
      [⟨.cycles, .number 0⟩, ⟨.opcode, .opcode .c2⟩, ⟨.operand1, .sentinel⟩, ⟨.operand2, .noValue⟩,
        ⟨.pc, .number 0⟩, ⟨.inc, .number 0⟩, ⟨.acc, .number (-4)⟩] := by decide

/-- R233: the value in the requested base: -42 in decimal, and 255 in hexadecimal in either case of digits. -/
theorem test_number_text :
    numberText .decimal (-42) = "-42".toList ∧ numberText .hex 16 = "0x10".toList ∧
      (numberText .hex 255).map Char.toUpper = "0XFF".toList := by
  refine ⟨by decide, ?_, ?_⟩ <;> simp only [numberText, reportDigits] <;> cases Config.reportUpperHex <;> decide

/-- R9: `TOKEN_BITS` is an argument. On a build of nine-bit tokens the immediate 256 fits, and with it `ACC` + 256. -/
theorem test_nine_bit_tokens :
    (let s := { onImage [.byte 0xC1, .byte 256, .halt] with params := { Params.reference with tokenBits := 9 } }
     (Memory.wf s.params s.image, after view4 (step s)) = (true, some (2, 0, 256, .running))) ∧
    Memory.wf Params.reference [.byte 256] = false ∧
    tableTokens 9 18 (1 + 2 * 2 ^ 9) = [.byte 1, .byte 2, .byte 0] := by decide

/-! ### Witnesses: a state and operands that meet the hypotheses of each statement, at the ends of their ranges -/

/-- A core of nine data bits and eight `PC` bits, its words at the ends of their range, at its last iteration. -/
def nineBit : State :=
  { onImage [.byte 0xC2, .byte 0xC2, .halt] with
    acc := -256, inc := 255, regs := State.reset.regs.set 15 255, cycles := 999
    params := { Params.reference with dataWidth := .finite 9, pcWidth := .finite 8 } }

theorem nineBit_dataInv : nineBit.DataInv :=
  ⟨by decide, by decide, by decide, by decide, by decide, by decide, by decide⟩

theorem nineBit_inv : nineBit.Inv := ⟨nineBit_dataInv, by show 999 ≤ 1000; omega⟩

/-- The same core with the other setting of `SENTINEL_OPERAND`. -/
def zeroSetting : State := { nineBit with params := { nineBit.params with sentinelOperand := .zero } }

/-- A core stopped by an error. -/
def faulted : State := { onImage [.byte 0, .halt] with
  cycles := 1, status := .faulted (.unsupportedOpcode (.byte 0) 0) }

theorem faulted_inv : faulted.Inv :=
  ⟨⟨by decide, by decide, by decide, by decide, by decide, by decide, by decide⟩,
    ⟨by decide, by decide, by decide, rfl, rfl, 0, rfl, by unfold illegalByte; decide⟩⟩

theorem witness_IllegalBytesRaiseUnsupportedOpcode :
    ∀ b ∈ ([0x00, 0xB0, 0xB4, 0xBF, 0xC7, 0xCF, 0xD3, 0xFF] : List Byte),
      let s := { onImage [.byte b, .halt] with cycles := 999 }
      s.status = .running ∧ s.cycles + 1 ≤ s.params.cycleLimit ∧ s.pc + 1 < s.len ∧
        s.tok s.pc = some (.byte b) ∧ Opcode.ofByte? b = none := by decide

theorem witness_DecoderReadsPcAndTwoViews :
    let s := onImage [.byte 0, .halt]
    Memory.tokensFit s.params s.image = true ∧ s.view 0 = .byte 0 ∧
    s.tok s.pc = some (.byte 0) ∧ Opcode.ofByte? 0 = none ∧ s.tok 1 = some .halt ∧ s.len ≤ 2 ∧ 1 < s.len := by
  decide

theorem witness_DecodeOfEncode :
    ((Instr.b2 (.byte 255) .absent).wellFormed 8 = true ∧
      (.absent ∈ (Instr.b2 (.byte 255) .absent).operands → ([] : List Token) = [])) ∧
    ((Instr.b3 .sentinel (.byte 0)).wellFormed 8 = true ∧
      (.absent ∈ (Instr.b3 .sentinel (.byte 0)).operands → [Token.halt] = [])) := by decide

theorem witness_EncodeOfDecode :
    decodeTokens [.byte 0xB2, .halt] = .ok ⟨.b2 .sentinel .absent, .sentinel, .absent⟩ ∧
      2 ≤ [Token.byte 0xB2, .halt].length ∧ (∀ t ∈ [Token.byte 0xB2, .halt], t.fits 8 = true) := by decide

/-- The operand ranges and the setting that the result statements of `b1` to `d2` name. -/
theorem witness_operand_ranges :
    15 < nineBit.numRegs ∧ nineBit.numRegs ≤ 16 ∧
      nineBit.numRegs ≤ 255 ∧
      nineBit.params.sentinelOperand = .fault ∧ nineBit.params.wf = true ∧ 255 < 2 ^ nineBit.params.tokenBits ∧
      (nineBit.acc < 0 ∧ 2 ^ nineBit.params.tokenBits ≤ (256 : Int)) ∧
      Instr.b3 .absent (.byte 0) ∈ [Instr.b1 .absent, .b2 .absent (.byte 0), .b3 .absent (.byte 0),
        .c0 .absent, .c1 .absent, .d0 .absent, .d1 .absent, .d2 .absent] := by decide

theorem witness_B2ComparesBitPatterns :
    15 < nineBit.numRegs ∧ nineBit.DataInv ∧ nineBit.params.dataWidth = .finite 9 :=
  ⟨by decide, nineBit_dataInv, rfl⟩

/-- `C5`, `C6`, `D0`, `D2` on a build of nine bits: words at both ends of the range are copied whole. -/
theorem witness_copies_at_the_ends_of_the_range :
    nineBit.DataInv ∧ after view4 (exec .c5 nineBit) = some (1, 255, 255, .running) ∧
      after view4 (exec .c6 nineBit) = some (1, -256, -256, .running) ∧
      after view4 (exec (.d0 (.byte 15)) nineBit) = some (2, 255, 255, .running) :=
  ⟨nineBit_dataInv, by decide, by decide, by decide⟩

theorem witness_JumpPastEndHaltsAtTarget :
    ∀ a ∈ ([2, 255] : List Byte),
      let s := { onImage [.byte 0xB1, .byte a, .halt] with cycles := 998 }
      s.status = .running ∧ s.cycles + 2 ≤ s.params.cycleLimit ∧ s.tok s.pc = some (.byte 0xB1) ∧
        s.tok (s.pc + 1) = some (.byte a) ∧ s.len ≤ a + 1 := by decide

theorem witness_WrapIsTheSignedResidue :
    (9 : Nat) ≤ 9 ∧ wrap (.finite 9) 256 = -256 ∧
      ((-2 ^ (9 - 1) ≤ (-256 : Int) ∧ (-256 : Int) < 2 ^ (9 - 1)) ∧ (2 : Int) ^ 9 ∣ -256 - 256) := by decide

theorem witness_HaltJumpsToLastToken : 0 < (onImage [.halt]).len ∧ State.reset.len = 0 := by decide

theorem witness_HaltStopsAtTheNextIteration :
    let s := { onImage [.halt, .byte 0xC2] with cycles := 998 }
    s.status = .running ∧ s.cycles + 2 ≤ s.params.cycleLimit ∧ s.pc + 1 < s.len ∧
      s.tok s.pc = some .halt := by decide

theorem witness_SentinelReadsAsZeroUnderZeroSetting : zeroSetting.params.sentinelOperand = .zero := rfl

theorem witness_UnusedViewsNeverFault :
    (let s := onImage [.halt, .halt]
     s.status = .running ∧ s.cycles + 1 ≤ s.params.cycleLimit ∧ s.pc + 1 < s.len ∧
      s.tok s.pc = some .halt ∧ Opcode.ofToken? .halt = some .halt ∧ Opcode.halt.format = .T1) ∧
    (let s := onImage [.byte 0xD1, .byte 255, .halt]
     s.status = .running ∧ s.cycles + 1 ≤ s.params.cycleLimit ∧ s.pc + 1 < s.len ∧
      s.tok s.pc = some (.byte 0xD1) ∧ Opcode.ofToken? (.byte 0xD1) = some .d1 ∧ Opcode.d1.format = .T2 ∧
      useByte s .one (s.view (s.pc + 1)) = .ok 255 ∧
      (Opcode.d1 ∈ [Opcode.c0, .d0, .d2] → 255 < s.numRegs)) ∧
    (let s := onImage [.byte 0xD2, .byte 15, .halt]
     s.status = .running ∧ s.cycles + 1 ≤ s.params.cycleLimit ∧ s.pc + 1 < s.len ∧
      s.tok s.pc = some (.byte 0xD2) ∧ Opcode.ofToken? (.byte 0xD2) = some .d2 ∧ Opcode.d2.format = .T2 ∧
      useByte s .one (s.view (s.pc + 1)) = .ok 15 ∧
      (Opcode.d2 ∈ [Opcode.c0, .d0, .d2] → 15 < s.numRegs)) := by decide

/-- An instruction that answers a next state, one that raises, and each writer's write. -/
theorem witness_InstructionFrame_WritersOfTheDataState :
    exec (.d2 (.byte 15)) nineBit = .next ((nineBit.writeReg 15 (-256)).advance 2) ∧
      ((nineBit.writeReg 15 (-256)).advance 2).readReg 15 ≠ nineBit.readReg 15 ∧
      exec (.illegal 0) nineBit = .next (nineBit.raise (.unsupportedOpcode (.byte 0) 0)) ∧
      after State.acc (exec .c5 nineBit) ≠ some nineBit.acc ∧
      after State.inc (exec .c4 nineBit) ≠ some nineBit.inc := ⟨rfl, by decide, rfl, by decide, by decide⟩

theorem witness_NegativeAccInThreeWays :
    let s := { State.reset with inc := -1 }
    s.params.dataWidth = .unbounded ∧ 0 ≤ s.acc ∧ after (fun t => decide (t.acc < 0)) (exec .c5 s) = some true := by
  decide

/-- Where an instruction runs and where it raises, at the last iteration under the limit. -/
theorem witness_StepRunsTheDecodedInstruction :
    (let d : Decoded := ⟨.c2, .byte 0xC2, .sentinel⟩
     nineBit.status = .running ∧ nineBit.cycles + 1 ≤ nineBit.params.cycleLimit ∧
      nineBit.pc + 1 < nineBit.len ∧ decodeTokens nineBit.fetchWindow = .ok d ∧
      d.instr.wellFormed nineBit.params.tokenBits = true ∧
      after State.status (exec d.instr { nineBit with cycles := nineBit.cycles + 1 }) = some .running ∧
      d.instr.opcode? = some .c2) ∧
    (let s := onImage [.byte 0xB2, .byte 3]
     let d : Decoded := ⟨.b2 (.byte 3) .absent, .byte 3, .absent⟩
     s.status = .running ∧ s.cycles + 1 ≤ s.params.cycleLimit ∧ s.pc + 1 < s.len ∧
      decodeTokens s.fetchWindow = .ok d ∧ d.instr.wellFormed s.params.tokenBits = true ∧
      after State.status (exec d.instr { s with cycles := s.cycles + 1 }) =
        some (.faulted (.missingOperand 0))) := by decide

theorem witness_StoppedCoreNeverMoves :
    faulted.status ≠ .running ∧
      (faulted.stop (.halted .atSentinel)).status ≠ .running ∧
      (faulted.stop .cycleLimitExceeded).status ≠ .running := by decide

theorem witness_CycleLimitStopsFirst :
    let s := { State.reset with cycles := 1000 }
    s.status = .running ∧ s.params.cycleLimit < s.cycles + 1 := by decide

theorem witness_MissingNextTokenHalts :
    ∀ pc ∈ [0, 1, 7],
      let s := { onImage [.halt] with pc := pc, cycles := 999 }
      s.status = .running ∧ s.cycles + 1 ≤ s.params.cycleLimit ∧ s.len ≤ s.pc + 1 := by decide

/-- Any state steps to a next state; here the ones that the statements over a step name. -/
theorem witness_steps_of_running_cores :
    after State.cycles (step nineBit) = some 1000 ∧ after State.status (step nineBit) = some .running ∧
      after State.status (step { onImage [.byte 0, .halt] with cycles := 0 }) = some faulted.status ∧
      after State.cycles (step faulted) = some 1 := by decide

theorem witness_FaultIsPrecise :
    let s := onImage [.byte 0, .halt]
    s.status = .running ∧ step s = .next faulted ∧ faulted.status = .faulted (.unsupportedOpcode (.byte 0) 0) :=
  ⟨rfl, rfl, rfl⟩

theorem witness_StepReadsAtMostThreeTokens :
    let s := onImage [.byte 0xC2, .byte 1, .byte 2, .byte 3]
    let m : Image := [.byte 0xC2, .byte 1, .byte 2, .halt]
    m.length = s.len ∧ (∀ j, j < 3 → m[s.pc + j]? = s.tok (s.pc + j)) ∧ m ≠ s.image := by decide

/-- A state with the invariant that steps, and a stopped one. -/
theorem witness_EveryStepKeepsTheInvariant :
    nineBit.Inv ∧ (∃ t, step nineBit = .next t) ∧ faulted.Inv ∧ step faulted = .next faulted :=
  ⟨nineBit_inv, ⟨_, rfl⟩, faulted_inv, rfl⟩

theorem witness_ConstructedCoreHasTheInvariant :
    Memory.tokensFit { Params.reference with dataWidth := .finite 9, pcWidth := .finite 8 } [.byte 0xC2, .halt] = true ∧
    (boot Params.reference ['f', 'f'] {}).toOption.map State.image = some [.byte 255] ∧
    (construct { Params.reference with dataWidth := .finite 9, pcWidth := .finite 8 }
      [.byte 0xC2, .halt] { pc := 255, inc := 255, acc := -256, registers := [(15, 255)] }).toOption.map
      (fun s => (s.pc, s.inc, s.acc, s.readReg 15)) = some (255, 255, -256, 255) := by decide

theorem witness_runs : State.reset.status = .running ∧ State.reset.cycles = 0 ∧
    steps 0 State.reset = .next State.reset ∧
    after State.status (steps 1 State.reset) = some (.halted .implicitEnd) ∧
    after State.status (steps 1 (onImage [.byte 0, .halt])) =
      some (.faulted (.unsupportedOpcode (.byte 0) 0)) ∧
    after State.status (steps 1 { State.reset with
      params := { Params.reference with cycleLimit := 0 } }) = some .cycleLimitExceeded :=
  ⟨rfl, rfl, rfl, by decide, by decide, by decide⟩

theorem witness_FinitePcNeverWraps :
    let s := { onImage (List.replicate 254 (.byte 0xC2)) with
      pc := 255, params := { Params.reference with pcWidth := .finite 8 } }
    s.params.pcWidth = .finite 8 ∧ 8 ≤ 8 ∧ s.params.tokenBits ≤ 8 ∧
      Memory.tokensFit s.params s.image = true ∧ s.len ≤ 2 ^ 8 - 2 ∧ s.pc < 2 ^ 8 ∧ steps 0 s = .next s :=
  ⟨rfl, by decide, by decide, by decide +kernel,
    by show (List.replicate 254 _).length ≤ 254; rw [List.length_replicate], by decide, rfl⟩

/-- A construction that succeeds, and one with the trace off, for the statement on the trace. -/
theorem witness_TraceHasNoEffect :
    construct Params.reference [] {} = .ok State.reset ∧
      hostRun 0 Params.reference [] { verbose := false } = .ok (.next State.reset, []) ∧
      after State.cycles (step State.reset) = some 1 := ⟨rfl, rfl, by decide⟩

theorem witness_FinalZeroBecomesTheSentinel : Token.halt ≠ .byte 0 ∧ Token.byte 1 ≠ .byte 0 := by decide

theorem witness_LoadingTheRawJoinGivesTheImage :
    Memory.tokensFit Params.reference [.byte 255, .byte 0, .halt] = true ∧
      [Token.byte 255, .byte 0, .halt].getLast? ≠ some (.byte 0) ∧ ([] : Image).getLast? ≠ some (.byte 0) := by decide

theorem witness_LongAndCompactFormsAgree :
    ∀ l ∈ ([(('9', 'f'), [['C', '2'], ['x']], ['#', ':']), (('0', '0'), [], [])] :
        List ((Char × Char) × List Text × Text)),
      (hexDigit? l.1.1).isSome = true ∧ (hexDigit? l.1.2).isSome = true ∧
      (∀ w ∈ l.2.1, w ≠ [] ∧ ∀ c ∈ w, isSpace c = false ∧ c ≠ '#') ∧ '\n' ∉ l.2.2 := by
  simp [hexDigit?, isSpace, Char.isWhitespace]

theorem witness_ListingCutsTheImage :
    (listing [.byte 0xC2, .byte 0xB3, .byte 5])[1]? = some ⟨1, [.byte 0xB3, .byte 5]⟩ ∧
      Opcode.ofToken? (.byte 0xD2) = some .d2 ∧ Opcode.ofToken? .halt = some .halt ∧
      Opcode.ofToken? (.byte 0) = none := by decide

end Sys2Proof.Tests
end

section
/-! `wrap` characterised (`00_scope.md` R11): it depends on the residue alone, so the one value of the signed range
with that residue is the wrapped value. -/

namespace Sys2Proof.Machine

theorem fitsWidth_finite_iff {n : Nat} {v : Int} :
    fitsWidth (.finite n) v = true ↔ -2 ^ (n - 1) ≤ v ∧ v < 2 ^ (n - 1) :=
  decide_eq_true_iff

/-- Congruent values wrap to the same value. -/
theorem wrap_finite_congr {n : Nat} {v w : Int} (h : w ≡ v [ZMOD 2 ^ n]) :
    wrap (.finite n) w = wrap (.finite n) v :=
  congrArg (· - 2 ^ (n - 1)) (h.add_right (2 ^ (n - 1)))

/-- R11 at every width of at least one bit. -/
theorem wrap_finite_eq_iff {n : Nat} (hn : 0 < n) {v w : Int} :
    wrap (.finite n) v = w ↔ fitsWidth (.finite n) w = true ∧ w ≡ v [ZMOD 2 ^ n] := by
  constructor
  · rintro rfl
    exact ⟨fitsWidth_wrap_finite hn v, wrap_finite_emod n v⟩
  · rintro ⟨hfits, hmod⟩
    have hne : Width.finite n ≠ .finite 0 := fun h => hn.ne' (Width.finite.inj h)
    calc wrap (.finite n) v
      _ = wrap (.finite n) w := (wrap_finite_congr hmod).symm
      _ = w := wrap_eq_of_fits hne hfits

end Sys2Proof.Machine

open Sys2Proof Sys2Proof.Machine

/-- Settles O14: R11's range and congruence determine the wrapped value. -/
theorem wrapIsTheSignedResidue : Obligations.WrapIsTheSignedResidue := by
  unfold Obligations.WrapIsTheSignedResidue
  refine ⟨wrap_unbounded, fun n v w hn => ?_⟩
  have hpos : 0 < n := by omega
  rw [wrap_finite_eq_iff hpos, fitsWidth_finite_iff, Int.modEq_comm, Int.modEq_iff_dvd]

end

section
/-! What an instruction that answers a next state did, said once: it completed with the writes of its row of the opcode
table, or it raised an error that an operand check or its opcode byte gives (`30_encoding.md` R92, R94; `60_exceptions.md`
R214). -/

namespace Sys2Proof.Machine

/-- The state with which an instruction completes from `s`, one constructor per instruction that can. -/
inductive Completes (s : State) : Instr → State → Prop where
  | b1 {addr a} : useAddr s .one addr = .ok a → Completes s (.b1 addr) (s.setPc a)
  | b2 {reg addr r a} : useReg s .one reg = .ok r → useAddr s .two addr = .ok a →
      Completes s (.b2 reg addr) (s.branch (decide (s.regEqualsAcc r)) a)
  | b3 {val addr v a} : useVal s .one val = .ok v → useAddr s .two addr = .ok a →
      Completes s (.b3 val addr) (s.branch (decide (s.accEqualsVal v)) a)
  | c0 {reg r} : useReg s .one reg = .ok r →
      Completes s (.c0 reg) ((s.writeAcc (s.acc + s.readReg r)).advance 2)
  | c1 {val v} : useVal s .one val = .ok v → Completes s (.c1 val) ((s.writeAcc (s.acc + v)).advance 2)
  | c2 : Completes s .c2 ((s.writeInc (s.inc + 1)).advance 1)
  | c3 : Completes s .c3 ((s.writeInc (s.inc - 1)).advance 1)
  | c4 : Completes s .c4 ((s.writeInc 0).advance 1)
  | c5 : Completes s .c5 ((s.writeAcc s.inc).advance 1)
  | c6 : Completes s .c6 ((s.writeInc s.acc).advance 1)
  | d0 {reg r} : useReg s .one reg = .ok r → Completes s (.d0 reg) ((s.writeAcc (s.readReg r)).advance 2)
  | d1 {val v} : useVal s .one val = .ok v → Completes s (.d1 val) ((s.writeAcc v).advance 2)
  | d2 {reg r} : useReg s .one reg = .ok r → Completes s (.d2 reg) ((s.writeReg r s.acc).advance 2)
  | halt {last} : s.len = last + 1 → Completes s .halt (s.setPc last)

/-- The error an instruction raises from `s`, and the check that gives it. -/
inductive Raises (s : State) (i : Instr) : StepError → Prop where
  /-- The byte is no opcode (R211). -/
  | illegalByte {b} : i = .illegal b → Raises s i (.unsupportedOpcode (.byte b) s.pc)
  /-- Operand 1 fails the checks that every kind shares (R213). -/
  | operandOne {o f} : i.operands[0]? = some o → useByte s .one o = .error f → Raises s i f
  /-- Operand 1 is a register number outside the bank (R212). -/
  | register {op o b} : i.opcode? = some op → op ∈ registerOpcodes → i.operands[0]? = some o →
      useByte s .one o = .ok b → s.numRegs ≤ b → Raises s i (.registerIndexOutOfRange b s.pc)
  /-- Operand 2 fails the checks that every kind shares (R213). -/
  | operandTwo {o f} : i.operands[1]? = some o → useByte s .two o = .error f → Raises s i f

/-! ### The operand checks by kind (R94) -/

theorem useVal_eq_useByte (s : State) (n : OperandNo) (o : OperandView) : useVal s n o = useByte s n o := by
  unfold useVal; cases useByte s n o <;> rfl

theorem useAddr_eq_useByte (s : State) (n : OperandNo) (o : OperandView) : useAddr s n o = useByte s n o := by
  unfold useAddr; cases useByte s n o <;> rfl

/-- A register operand fails the shared checks, or its number is outside the bank. -/
theorem useReg_eq_error {s : State} {n : OperandNo} {o : OperandView} {f : StepError}
    (h : useReg s n o = .error f) :
    useByte s n o = .error f ∨
      ∃ b, useByte s n o = .ok b ∧ s.numRegs ≤ b ∧ f = .registerIndexOutOfRange b s.pc := by
  unfold useReg at h
  cases hb : useByte s n o with
  | error g => rw [hb] at h; exact .inl h
  | ok b =>
    simp only [hb] at h
    split at h
    next => cases h
    next hlt => cases h; exact .inr ⟨b, rfl, Nat.le_of_not_lt hlt, rfl⟩

section Raises
variable {s : State} {i : Instr} {o : OperandView} {f : StepError}

theorem Raises.of_useReg {op : Opcode} (hop : i.opcode? = some op) (hmem : op ∈ registerOpcodes)
    (ho : i.operands[0]? = some o) (h : useReg s .one o = .error f) : Raises s i f := by
  obtain hf | ⟨b, hb, hle, rfl⟩ := useReg_eq_error h
  · exact .operandOne ho hf
  · exact .register hop hmem ho hb hle

theorem Raises.of_useVal (ho : i.operands[0]? = some o) (h : useVal s .one o = .error f) : Raises s i f :=
  .operandOne ho ((useVal_eq_useByte s .one o).symm.trans h)

theorem Raises.of_useAddr_one (ho : i.operands[0]? = some o) (h : useAddr s .one o = .error f) : Raises s i f :=
  .operandOne ho ((useAddr_eq_useByte s .one o).symm.trans h)

theorem Raises.of_useAddr_two (ho : i.operands[1]? = some o) (h : useAddr s .two o = .error f) : Raises s i f :=
  .operandTwo ho ((useAddr_eq_useByte s .two o).symm.trans h)

end Raises

/-! ### The inversion of `exec` -/

theorem complete_bind_eq_next {α : Type} {s t : State} {r : Except StepError α} {k : α → Except StepError State}
    (h : complete s (r >>= k) = .next t) :
    (∃ a, r = .ok a ∧ complete s (k a) = .next t) ∨ ∃ f, r = .error f ∧ t = s.raise f := by
  cases r with
  | ok a => exact .inl ⟨a, rfl, h⟩
  | error f => cases h; exact .inr ⟨f, rfl, rfl⟩

theorem exec_halt_of_len_zero {s : State} (h : s.len = 0) : exec .halt s = .fault .haltOnEmptyImage := by
  simp [exec, execHalt, h]

theorem exec_halt_of_len_succ {s : State} {last : Nat} (h : s.len = last + 1) :
    exec .halt s = .next (s.setPc last) := by
  simp [exec, execHalt, h]

/-- An instruction whose last operand check decides between its writes and an error. -/
theorem completes_or_raises_of_check {α : Type} {s t : State} {i : Instr} {r : Except StepError α} {g : α → State}
    (hok : ∀ a, r = .ok a → Completes s i (g a)) (herr : ∀ f, r = .error f → Raises s i f)
    (h : complete s (r >>= fun a => pure (g a)) = .next t) :
    Completes s i t ∨ ∃ f, Raises s i f ∧ t = s.raise f := by
  obtain ⟨a, ha, h⟩ | ⟨f, hf, rfl⟩ := complete_bind_eq_next h
  · cases h; exact .inl (hok a ha)
  · exact .inr ⟨f, herr f hf, rfl⟩

/-- An instruction that answers a next state completed or raised. -/
theorem exec_eq_next_cases {i : Instr} {s t : State} (h : exec i s = .next t) :
    Completes s i t ∨ ∃ f, Raises s i f ∧ t = s.raise f := by
  cases i with
  | b1 addr => exact completes_or_raises_of_check (fun _ => .b1) (fun _ => .of_useAddr_one rfl) h
  | b2 reg addr =>
    obtain ⟨r, hr, h⟩ | ⟨f, hf, rfl⟩ := complete_bind_eq_next h
    · exact completes_or_raises_of_check (fun _ => .b2 hr) (fun _ => .of_useAddr_two rfl) h
    · exact .inr ⟨f, .of_useReg rfl (by decide) rfl hf, rfl⟩
  | b3 val addr =>
    obtain ⟨v, hv, h⟩ | ⟨f, hf, rfl⟩ := complete_bind_eq_next h
    · exact completes_or_raises_of_check (fun _ => .b3 hv) (fun _ => .of_useAddr_two rfl) h
    · exact .inr ⟨f, .of_useVal rfl hf, rfl⟩
  | c0 reg => exact completes_or_raises_of_check (fun _ => .c0) (fun _ => .of_useReg rfl (by decide) rfl) h
  | c1 val => exact completes_or_raises_of_check (fun _ => .c1) (fun _ => .of_useVal rfl) h
  | c2 => cases h; exact .inl .c2
  | c3 => cases h; exact .inl .c3
  | c4 => cases h; exact .inl .c4
  | c5 => cases h; exact .inl .c5
  | c6 => cases h; exact .inl .c6
  | d0 reg => exact completes_or_raises_of_check (fun _ => .d0) (fun _ => .of_useReg rfl (by decide) rfl) h
  | d1 val => exact completes_or_raises_of_check (fun _ => .d1) (fun _ => .of_useVal rfl) h
  | d2 reg => exact completes_or_raises_of_check (fun _ => .d2) (fun _ => .of_useReg rfl (by decide) rfl) h
  | halt =>
    cases hl : s.len with
    | zero => rw [exec_halt_of_len_zero hl] at h; cases h
    | succ last => rw [exec_halt_of_len_succ hl] at h; cases h; exact .inl (.halt hl)
  | illegal b => cases h; exact .inr ⟨_, .illegalByte rfl, rfl⟩

/-! ### The frame of an instruction that completes -/

@[simp] theorem State.branch_acc (s : State) (taken : Bool) (a : Nat) : (s.branch taken a).acc = s.acc := by
  cases taken <;> rfl

@[simp] theorem State.branch_inc (s : State) (taken : Bool) (a : Nat) : (s.branch taken a).inc = s.inc := by
  cases taken <;> rfl

@[simp] theorem State.branch_regs (s : State) (taken : Bool) (a : Nat) : (s.branch taken a).regs = s.regs := by
  cases taken <;> rfl

theorem Completes.sameRun {s t : State} {i : Instr} (h : Completes s i t) : s.SameRun t := by
  cases h with
  | b2 | b3 => exact s.branch_sameRun _ _
  | _ => exact ⟨rfl, rfl, rfl, rfl, rfl⟩

/-! ### The writers of the data state (`10_state.md` R33, R35, R36) -/

section Writers
variable {s t : State} {i : Instr} (h : Completes s i t)
include h

theorem Completes.d2_of_readReg_ne {j : Nat} (hne : t.readReg j ≠ s.readReg j) :
    ∃ o, i = .d2 o ∧ useReg s .one o = .ok j := by
  cases h with
  | @d2 o r hr =>
    by_cases hj : j = r
    · exact ⟨o, rfl, hj ▸ hr⟩
    · exact absurd (State.readReg_writeReg_ne s hj s.acc) hne
  | _ => exact absurd (State.readReg_congr (by simp) j) hne

theorem Completes.opcode_of_acc_ne (hne : t.acc ≠ s.acc) :
    ∃ op ∈ [Opcode.c0, .c1, .c5, .d0, .d1], i.opcode? = some op := by
  cases h with
  | c0 | c1 | c5 | d0 | d1 => refine ⟨_, ?_, rfl⟩; decide
  | _ => exact absurd (by simp) hne

theorem Completes.opcode_of_inc_ne (hne : t.inc ≠ s.inc) :
    ∃ op ∈ [Opcode.c2, .c3, .c4, .c6], i.opcode? = some op := by
  cases h with
  | c2 | c3 | c4 | c6 => refine ⟨_, ?_, rfl⟩; decide
  | _ => exact absurd (by simp) hne

/-- R35: with unbounded words only `c5`, `d0` and `c0` turn a non-negative `ACC` negative. -/
theorem Completes.source_of_acc_neg (hw : s.params.dataWidth = .unbounded) (hs : 0 ≤ s.acc) (ht : t.acc < 0) :
    (i = .c5 ∧ s.inc < 0) ∨ ∃ o r, (i = .d0 o ∨ i = .c0 o) ∧ useReg s .one o = .ok r ∧ s.readReg r < 0 := by
  cases h with
  | @c0 reg r hr =>
    have hsum : s.acc + s.readReg r < 0 := by simpa [hw] using ht
    exact .inr ⟨reg, r, .inr rfl, hr, by omega⟩
  | @d0 reg r hr => exact .inr ⟨reg, r, .inl rfl, hr, by simpa [hw] using ht⟩
  | c5 => exact .inl ⟨rfl, by simpa [hw] using ht⟩
  | @c1 val v =>
    have hsum : s.acc + v < 0 := by simpa [hw] using ht
    omega
  | @d1 val v =>
    have hv : (v : Int) < 0 := by simpa [hw] using ht
    omega
  | _ => exact absurd ht (by simpa using hs)

end Writers

end Sys2Proof.Machine

open Sys2Proof Sys2Proof.Machine

/-- Settles O31: an instruction that completes has the writers of its row, and one that raises writes none of them. -/
theorem writersOfTheDataState : Obligations.WritersOfTheDataState := by
  intro i s t h
  obtain hc | ⟨f, -, rfl⟩ := exec_eq_next_cases h
  · exact ⟨fun _ => hc.d2_of_readReg_ne, hc.opcode_of_acc_ne, hc.opcode_of_inc_ne⟩
  · exact ⟨fun _ hne => absurd rfl hne, fun hne => absurd rfl hne, fun hne => absurd rfl hne⟩

/-- Settles O32: an instruction that raises keeps `ACC`, so it is one that completes. -/
theorem negativeAccInThreeWays : Obligations.NegativeAccInThreeWays := by
  intro i s t hw h hs ht
  obtain hc | ⟨f, -, rfl⟩ := exec_eq_next_cases h
  · exact hc.source_of_acc_neg hw hs ht
  · exact absurd ht (Int.not_lt.2 hs)

end

section
/-! The invariant of the core, rule by rule: what each write of an instruction keeps of `State.DataInv`, and what an error
raised at `PC` says of the image (`State.FaultExplained`). -/

namespace Sys2Proof

/-! ### The operands of a decoded instruction (`30_encoding.md` R82, R90) -/

/-- A token is an opcode's, or an illegal byte. -/
theorem instrOfToken_cases (t : Token) (o1 o2 : OperandView) :
    (∃ op, Opcode.ofToken? t = some op ∧ instrOfToken t o1 o2 = op.instr o1 o2) ∨
      ∃ b, t = .byte b ∧ Opcode.ofByte? b = none ∧ instrOfToken t o1 o2 = .illegal b := by
  cases h : Opcode.ofToken? t with
  | some op =>
    obtain rfl := (Opcode.ofToken?_eq_some_iff t op).1 h
    exact .inl ⟨op, rfl, instrOfToken_token op o1 o2⟩
  | none =>
    cases t with
    | halt => cases h
    | byte b =>
      have hb : Opcode.ofByte? b = none := h
      exact .inr ⟨b, rfl, hb, by simp [instrOfToken, hb]⟩

/-- The operands are the views that the opcode's format has. -/
theorem Opcode.instr_operands (op : Opcode) (o1 o2 : OperandView) :
    (op.instr o1 o2).operands = [o1, o2].take (op.length - 1) := by
  cases op <;> rfl

/-- An operand of a decoded instruction is the view at its place, and the opcode's format has that place. -/
theorem instrOfToken_operands_eq_some {t : Token} {o1 o2 o : OperandView} {n : Nat}
    (h : (instrOfToken t o1 o2).operands[n]? = some o) :
    [o1, o2][n]? = some o ∧ ∃ op, Opcode.ofToken? t = some op ∧ n + 1 < op.length := by
  obtain ⟨op, ht, hi⟩ | ⟨b, -, -, hi⟩ := instrOfToken_cases t o1 o2
  · rw [hi, Opcode.instr_operands, List.getElem?_take] at h
    split at h
    next hn => exact ⟨h, op, ht, by omega⟩
    next => cases h
  · rw [hi] at h; cases h

theorem mem_operands_instrOfToken {t : Token} {o1 o2 o : OperandView}
    (h : o ∈ (instrOfToken t o1 o2).operands) : o = o1 ∨ o = o2 := by
  obtain ⟨n, hn⟩ := List.getElem?_of_mem h
  simpa using List.mem_of_getElem? (instrOfToken_operands_eq_some hn).1

namespace Machine

theorem mem_operandOpcodes_iff {op : Opcode} : op ∈ operandOpcodes ↔ 1 < op.length := by
  cases op <;> decide

theorem mem_twoOperandOpcodes_iff {op : Opcode} : op ∈ twoOperandOpcodes ↔ 2 < op.length := by
  cases op <;> decide

/-! ### The operand views of an image -/

theorem State.view_ne_absent {s : State} {j : Nat} (h : j < s.len) : s.view j ≠ .absent := by
  obtain ⟨t, ht⟩ := State.tok_of_present h
  cases t <;> simp [State.view, ht, viewOf]

/-- An operand view of an image of the build's tokens is one of the build's. -/
theorem State.view_fits {s : State} (h : Memory.tokensFit s.params s.image = true) (j : Nat) :
    (s.view j).fits s.params.tokenBits = true := by
  cases hv : s.view j with
  | absent | sentinel => rfl
  | byte b => exact decide_eq_true (State.view_byte_lt h hv)

/-- The byte that the shared checks let through has `TOKEN_BITS` bits; the sentinel reads as 0 (I6). -/
theorem useByte_lt {s : State} {n : OperandNo} {o : OperandView} {bits : Nat} {b : Byte}
    (hfit : o.fits bits = true) (h : useByte s n o = .ok b) : b < 2 ^ bits := by
  obtain ⟨c, rfl, hc⟩ | ⟨-, -, hc⟩ | ⟨-, -, hc⟩ | ⟨-, hc⟩ := useByte_cases s n o
  all_goals rw [hc] at h; cases h
  · exact of_decide_eq_true hfit
  · exact Nat.two_pow_pos bits

/-! ### What keeps the data invariant -/

/-- The invariant speaks of no field of the run loop. -/
theorem State.DataInv.congr {s t : State} (h : s.DataInv) (hpc : t.pc = s.pc) (hinc : t.inc = s.inc)
    (hacc : t.acc = s.acc) (hregs : t.regs = s.regs) (himage : t.image = s.image)
    (hparams : t.params = s.params) : t.DataInv := by
  obtain ⟨pc, inc, acc, regs, cycles, curop, status, image, params⟩ := t
  subst hpc hinc hacc hregs himage hparams
  exact ⟨h.params, h.bank, h.acc, h.inc, h.regs, h.pc, h.image⟩

section DataInv
variable {s : State} (h : s.DataInv)
include h

theorem State.DataInv.writeAcc (v : Int) : (s.writeAcc v).DataInv :=
  ⟨h.params, h.bank, fitsWidth_wrap h.params v, h.inc, h.regs, h.pc, h.image⟩

theorem State.DataInv.writeInc (v : Int) : (s.writeInc v).DataInv :=
  ⟨h.params, h.bank, h.acc, fitsWidth_wrap h.params v, h.regs, h.pc, h.image⟩

theorem State.DataInv.writeReg (r : Nat) (v : Int) : (s.writeReg r v).DataInv := by
  refine ⟨h.params, (s.numRegs_writeReg r v).trans h.bank, h.acc, h.inc, fun j hj => ?_, h.pc, h.image⟩
  rw [State.numRegs_writeReg] at hj
  show fitsWidth s.params.dataWidth ((s.writeReg r v).readReg j) = true
  by_cases hjr : j = r
  · subst hjr
    rw [State.readReg_writeReg_same s hj]
    exact fitsWidth_wrap h.params v
  · rw [State.readReg_writeReg_ne s hjr]
    exact h.regs j hj

theorem State.DataInv.setPc {a : Nat} (ha : fitsPcWidth s.params.pcWidth s.len a = true) : (s.setPc a).DataInv :=
  ⟨h.params, h.bank, h.acc, h.inc, h.regs, ha, h.image⟩

theorem State.DataInv.tokensFit : Memory.tokensFit s.params s.image = true :=
  (Bool.and_eq_true_iff.1 h.image).1

/-- An index keeps the bounds of `PC_WIDTH` where it lies under every finite 2^p. -/
theorem State.DataInv.fitsPcWidth_of_lt {a : Nat}
    (ha : ∀ p, s.params.pcWidth = .finite p → s.len ≤ 2 ^ p - 2 → s.params.tokenBits ≤ p → a < 2 ^ p) :
    fitsPcWidth s.params.pcWidth s.len a = true := by
  have hpc := h.pc
  have hwf := h.params
  cases hw : s.params.pcWidth with
  | unbounded => rfl
  | finite p =>
    simp only [fitsPcWidth, hw, decide_eq_true_eq] at hpc ⊢
    simp only [Params.wf, Params.pcWidthOk, hw, Bool.and_eq_true, decide_eq_true_eq] at hwf
    obtain ⟨h8, hlen, -⟩ := hpc
    exact ⟨h8, hlen, ha p hw hlen hwf.2.2⟩

/-- R62: the two tokens that the image's bound leaves free are room for falling through the longest instruction. -/
theorem State.DataInv.advance {n : Nat} (hnext : s.pc + 1 < s.len) (hn : n ≤ 3) : (s.advance n).DataInv :=
  h.setPc (h.fitsPcWidth_of_lt fun p _ hlen _ => by omega)

/-- R62: a branch target is a byte of the build, and a finite `PC_WIDTH` has room for one. -/
theorem State.DataInv.fitsPcWidth_target {n : OperandNo} {o : OperandView} {a : Nat}
    (hfit : o.fits s.params.tokenBits = true) (ha : useAddr s n o = .ok a) :
    fitsPcWidth s.params.pcWidth s.len a = true := by
  rw [useAddr_eq_useByte] at ha
  exact h.fitsPcWidth_of_lt fun p _ _ hbits =>
    (useByte_lt hfit ha).trans_le (Nat.pow_le_pow_right (by omega) hbits)

theorem State.DataInv.branch {a : Nat} (taken : Bool) (hnext : s.pc + 1 < s.len)
    (ha : fitsPcWidth s.params.pcWidth s.len a = true) : (s.branch taken a).DataInv := by
  cases taken
  · exact h.advance hnext le_rfl
  · exact h.setPc ha

/-- An instruction of the build's tokens that completes keeps the invariant. -/
theorem Completes.dataInv {i : Instr} {t : State} (hc : Completes s i t) (hnext : s.pc + 1 < s.len)
    (hfit : ∀ o ∈ i.operands, o.fits s.params.tokenBits = true) : t.DataInv := by
  cases hc with
  | @b1 addr a ha => exact h.setPc (h.fitsPcWidth_target (hfit addr (by simp [Instr.operands])) ha)
  | @b2 reg addr r a hr ha =>
    exact h.branch _ hnext (h.fitsPcWidth_target (hfit addr (by simp [Instr.operands])) ha)
  | @b3 val addr v a hv ha =>
    exact h.branch _ hnext (h.fitsPcWidth_target (hfit addr (by simp [Instr.operands])) ha)
  | c0 | c1 | c5 | d0 | d1 => exact (h.writeAcc _).advance hnext (by decide)
  | c2 | c3 | c4 | c6 => exact (h.writeInc _).advance hnext (by decide)
  | d2 => exact (h.writeReg _ _).advance hnext (by decide)
  | halt hl => exact h.setPc (h.fitsPcWidth_of_lt fun p _ hlen _ => by omega)

end DataInv

/-! ### What an error says of the image (`60_exceptions.md` R210-R214) -/

section FaultExplained
variable {s : State} {t : Token} (ht : s.tok s.pc = some t)
include ht

theorem State.opcodeAtPc?_eq : s.opcodeAtPc? = Opcode.ofToken? t := by
  simp [State.opcodeAtPc?, ht]

/-- Operand 1 is present (R195), so it fails the shared checks as a sentinel only. -/
theorem State.faultExplained_operandOne {f : StepError} (hnext : s.pc + 1 < s.len)
    (hop : ∃ op ∈ operandOpcodes, Opcode.ofToken? t = some op)
    (h : useByte s .one (s.view (s.pc + 1)) = .error f) : s.FaultExplained f := by
  rw [← State.opcodeAtPc?_eq ht] at hop
  obtain ⟨b, -, hb⟩ | ⟨-, -, hb⟩ | ⟨hv, hset, hb⟩ | ⟨hv, -⟩ := useByte_cases s .one (s.view (s.pc + 1))
  · rw [hb] at h; cases h
  · rw [hb] at h; cases h
  · rw [hb] at h; cases h
    exact ⟨rfl, hop, hset, hv⟩
  · exact absurd hv (State.view_ne_absent hnext)

theorem State.faultExplained_operandTwo {f : StepError} (hnext : s.pc + 1 < s.len)
    (hop : ∃ op ∈ twoOperandOpcodes, Opcode.ofToken? t = some op)
    (h : useByte s .two (s.view (s.pc + 2)) = .error f) : s.FaultExplained f := by
  rw [← State.opcodeAtPc?_eq ht] at hop
  obtain ⟨b, -, hb⟩ | ⟨-, -, hb⟩ | ⟨hv, hset, hb⟩ | ⟨hv, hb⟩ := useByte_cases s .two (s.view (s.pc + 2))
  · rw [hb] at h; cases h
  · rw [hb] at h; cases h
  · rw [hb] at h; cases h
    exact ⟨rfl, hop, hset, hv⟩
  · rw [hb] at h; cases h
    have hpast : ¬ s.pc + 2 < s.len := fun hlt => State.view_ne_absent hlt hv
    exact ⟨rfl, hop, by omega⟩

/-- An error of the instruction decoded at `PC` is explained by the image. -/
theorem Raises.faultExplained {f : StepError} (hnext : s.pc + 1 < s.len)
    (h : Raises s (instrOfToken t (s.view (s.pc + 1)) (s.view (s.pc + 2))) f) : s.FaultExplained f := by
  cases h with
  | @illegalByte b hi =>
    obtain ⟨op, htok, -⟩ | ⟨c, rfl, hc, hi'⟩ := instrOfToken_cases t (s.view (s.pc + 1)) (s.view (s.pc + 2))
    · have hop := instrOfToken_opcode? t (s.view (s.pc + 1)) (s.view (s.pc + 2))
      rw [hi, htok] at hop; cases hop
    · rw [hi] at hi'; cases hi'
      exact ⟨rfl, ht, b, rfl, hc⟩
  | operandOne ho hf =>
    obtain ⟨hv, op, htok, hlen⟩ := instrOfToken_operands_eq_some ho
    cases hv
    exact State.faultExplained_operandOne ht hnext ⟨op, mem_operandOpcodes_iff.2 hlen, htok⟩ hf
  | @register op o b hop hmem ho hb hle =>
    obtain ⟨hv, -⟩ := instrOfToken_operands_eq_some ho
    cases hv
    rw [instrOfToken_opcode?, ← State.opcodeAtPc?_eq ht] at hop
    exact ⟨rfl, ⟨op, hmem, hop⟩, b, hb, rfl, hle⟩
  | operandTwo ho hf =>
    obtain ⟨hv, op, htok, hlen⟩ := instrOfToken_operands_eq_some ho
    cases hv
    exact State.faultExplained_operandTwo ht hnext ⟨op, mem_twoOperandOpcodes_iff.2 hlen, htok⟩ hf

end FaultExplained

/-! ### The invariant over an iteration (`44_halt_and_run_loop.md` R190-R200) -/

theorem State.statusInv_of_running {s : State} (hr : s.status = .running) :
    s.StatusInv ↔ s.cycles ≤ s.params.cycleLimit := by
  simp [State.StatusInv, hr]

theorem State.recordOp_of_not_running {s : State} (h : s.status ≠ .running) (d : Decoded) : s.recordOp d = s :=
  if_neg h

/-- Counting and leaving `Running` writes no data. -/
theorem State.DataInv.stop_countIteration {s : State} (h : s.DataInv) (st : Status) :
    (s.countIteration.stop st).DataInv :=
  h.congr rfl rfl rfl rfl rfl rfl

/-- The instruction of an iteration that has counted: whether it completes or raises, the invariant holds after it. -/
theorem State.inv_of_exec {s u : State} {t : Token} (hdata : s.DataInv) (hr : s.status = .running)
    (hpos : 1 ≤ s.cycles) (hl : s.cycles ≤ s.params.cycleLimit) (hnext : s.pc + 1 < s.len)
    (ht : s.tok s.pc = some t)
    (h : exec (instrOfToken t (s.view (s.pc + 1)) (s.view (s.pc + 2))) s = .next u) (d : Decoded) :
    (u.recordOp d).Inv := by
  obtain hc | ⟨f, hf, rfl⟩ := exec_eq_next_cases h
  · have hrun := hc.sameRun
    have hfit : ∀ o ∈ (instrOfToken t (s.view (s.pc + 1)) (s.view (s.pc + 2))).operands,
        o.fits s.params.tokenBits = true := by
      intro o ho
      obtain rfl | rfl := mem_operands_instrOfToken ho <;> exact State.view_fits hdata.tokensFit _
    refine ⟨(hc.dataInv hdata hnext hfit).congr ?_ ?_ ?_ ?_ ?_ ?_, (State.statusInv_of_running ?_).2 ?_⟩
    all_goals simp [hrun.status, hrun.cycles, hrun.params, hr, hl]
  · rw [State.recordOp_of_not_running (by simp)]
    exact ⟨hdata.congr rfl rfl rfl rfl rfl rfl, hpos, hl, hnext, hf.faultExplained ht hnext⟩

end Machine
end Sys2Proof

open Sys2Proof Sys2Proof.Machine

/-- Settles O45, by the four things that a step can do. -/
theorem everyStepKeepsTheInvariant : Obligations.EveryStepKeepsTheInvariant := by
  intro s t hinv h
  obtain ⟨-, hs⟩ | ⟨hr, hl, hs⟩ | ⟨hr, hl, hp, hs⟩ | ⟨hr, hl, hp, tok, htok, hs⟩ := step_cases s
  all_goals rw [hs] at h
  · cases h; exact hinv
  · cases h
    have hle := (State.statusInv_of_running hr).1 hinv.status
    exact ⟨hinv.data.stop_countIteration _, show s.cycles + 1 = s.params.cycleLimit + 1 by omega⟩
  · cases h
    exact ⟨hinv.data.stop_countIteration _, Nat.le_add_left 1 s.cycles, hl, hp, rfl⟩
  · obtain ⟨u, hu, rfl⟩ := mapNext_eq_next h
    exact State.inv_of_exec (s := s.countIteration) (hinv.data.congr rfl rfl rfl rfl rfl rfl) hr
      (Nat.le_add_left 1 s.cycles) hl hp htok hu _

/-- Settles O46. -/
theorem resetHasTheInvariant : Obligations.ResetHasTheInvariant where
  data := ⟨rfl, rfl, rfl, rfl, fun _ _ => rfl, rfl, Memory.wf_reset⟩
  status := (State.statusInv_of_running rfl).2 (Nat.zero_le _)

end

section
/-! What an instruction does not read: `CYCLES` and `CUROP` (`10_state.md` R40, R42, R43) and the image but for its length
(R50). Executing with other values of them gives the same outcome with those values in it. -/

namespace Sys2Proof.Machine

/-- The state with other values of what no instruction reads. -/
def State.reframe (c : Nat) (o : Option DecodedOp) (m : Image) (s : State) : State :=
  { s with cycles := c, curop := o, image := m }

section Reframe
variable {s : State} {c : Nat} {o : Option DecodedOp} {m : Image}

theorem State.branch_reframe (taken : Bool) (a : Nat) :
    (s.reframe c o m).branch taken a = (s.branch taken a).reframe c o m := by
  cases taken <;> rfl

theorem complete_bind_reframe {α : Type} (r : Except StepError α) {k k' : α → Except StepError State}
    (hk : ∀ a, complete (s.reframe c o m) (k' a) = mapNext (State.reframe c o m) (complete s (k a))) :
    complete (s.reframe c o m) (r >>= k') = mapNext (State.reframe c o m) (complete s (r >>= k)) := by
  cases r with
  | ok a => exact hk a
  | error f => rfl

theorem exec_reframe (i : Instr) (hlen : m.length = s.len) :
    exec i (s.reframe c o m) = mapNext (State.reframe c o m) (exec i s) := by
  cases i with
  | b1 addr => exact complete_bind_reframe (useAddr s .one addr) fun _ => rfl
  | b2 reg addr =>
    exact complete_bind_reframe (useReg s .one reg) fun r =>
      complete_bind_reframe (useAddr s .two addr) fun a =>
        congrArg Host.Outcome.next (State.branch_reframe (decide (s.regEqualsAcc r)) a)
  | b3 val addr =>
    exact complete_bind_reframe (useVal s .one val) fun v =>
      complete_bind_reframe (useAddr s .two addr) fun a =>
        congrArg Host.Outcome.next (State.branch_reframe (decide (s.accEqualsVal v)) a)
  | c0 reg | d0 reg | d2 reg => exact complete_bind_reframe (useReg s .one reg) fun _ => rfl
  | c1 val | d1 val => exact complete_bind_reframe (useVal s .one val) fun _ => rfl
  | c2 | c3 | c4 | c5 | c6 | illegal => rfl
  | halt =>
    have hlen' : (s.reframe c o m).len = s.len := hlen
    cases hl : s.len with
    | zero => rw [exec_halt_of_len_zero hl, exec_halt_of_len_zero (hlen'.trans hl)]; rfl
    | succ last => rw [exec_halt_of_len_succ hl, exec_halt_of_len_succ (hlen'.trans hl)]; rfl

end Reframe

/-- What no instruction writes, whether it completes or raises. -/
theorem exec_frame {i : Instr} {s t : State} (h : exec i s = .next t) :
    t.cycles = s.cycles ∧ t.curop = s.curop ∧ t.image = s.image := by
  obtain hc | ⟨f, -, rfl⟩ := exec_eq_next_cases h
  · exact ⟨hc.sameRun.cycles, hc.sameRun.curop, hc.sameRun.image⟩
  · exact ⟨rfl, rfl, rfl⟩

theorem mapNext_congr {f g : State → State} {r : Host.Outcome State Fault Refusal}
    (h : ∀ t, r = .next t → f t = g t) : mapNext f r = mapNext g r := by
  cases r with
  | next t => exact congrArg Host.Outcome.next (h t rfl)
  | fault _ | refused _ => rfl

theorem mapNext_mapNext (f g : State → State) (r : Host.Outcome State Fault Refusal) :
    mapNext g (mapNext f r) = mapNext (fun t => g (f t)) r := by
  cases r <;> rfl

/-- An update that is a reframing of `s`, and of every state that agrees with `s` on what no instruction writes, may be
done before an instruction or after it. -/
theorem exec_comm {s : State} {c : Nat} {o : Option DecodedOp} {m : Image} {f : State → State} (i : Instr)
    (hlen : m.length = s.len)
    (hf : ∀ t : State, t.cycles = s.cycles ∧ t.curop = s.curop ∧ t.image = s.image → f t = t.reframe c o m) :
    exec i (f s) = mapNext f (exec i s) := by
  rw [hf s ⟨rfl, rfl, rfl⟩, exec_reframe i hlen]
  exact mapNext_congr fun t ht => (hf t (exec_frame ht)).symm

/-- R40: no instruction reads `CUROP`. -/
theorem exec_set_curop (i : Instr) (s : State) (c : Option DecodedOp) :
    exec i { s with curop := c } = mapNext (fun t => { t with curop := c }) (exec i s) :=
  exec_comm (c := s.cycles) (o := c) (m := s.image) i rfl fun t ⟨hc, _, hi⟩ => by rw [← hc, ← hi, State.reframe]

/-- R50: an instruction reads of the image its length alone. -/
theorem exec_set_image (i : Instr) {s : State} {m : Image} (hlen : m.length = s.len) :
    exec i { s with image := m } = mapNext (fun t => { t with image := m }) (exec i s) :=
  exec_comm (c := s.cycles) (o := s.curop) (m := m) i hlen fun t ⟨hc, ho, _⟩ => by rw [← hc, ← ho, State.reframe]

/-! ### What an iteration reads of the image -/

section Image
variable {s : State} {m : Image} (hlen : m.length = s.len)
  (htok : ∀ j, j < 3 → m[s.pc + j]? = s.tok (s.pc + j))

include htok in
theorem State.fetchWindow_set_image : State.fetchWindow { s with image := m } = s.fetchWindow := by
  refine List.ext_getElem? fun j => ?_
  by_cases hj : j < 3
  · simpa [State.fetchWindow, List.getElem?_take, List.getElem?_drop, State.tok, hj] using htok j hj
  · simp [State.fetchWindow, hj]

include hlen htok in
theorem State.haltKind_set_image : State.haltKind { s with image := m } = s.haltKind := by
  have h0 : State.tok { s with image := m } s.pc = s.tok s.pc := htok 0 (by decide)
  have hl : State.len { s with image := m } = s.len := hlen
  simp only [State.haltKind, h0, hl]

end Image

theorem State.recordOp_set_image (d : Decoded) (t : State) (m : Image) :
    State.recordOp d { t with image := m } = { t.recordOp d with image := m } := by
  unfold State.recordOp; split <;> rfl

/-- Recording over another `CUROP` differs in `CUROP` alone. -/
theorem State.recordOp_set_curop (d : Decoded) (t : State) (c : Option DecodedOp) :
    State.recordOp d { t with curop := c } =
      { t.recordOp d with curop := (State.recordOp d { t with curop := c }).curop } := by
  unfold State.recordOp; split <;> rfl

end Sys2Proof.Machine

open Sys2Proof Sys2Proof.Machine

/-- Settles O33: the update of `CYCLES` and `CUROP` commutes with every instruction. -/
theorem instructionsIgnoreCyclesAndCurop : Obligations.InstructionsIgnoreCyclesAndCurop := fun i s c o =>
  exec_comm (f := fun t => { t with cycles := c, curop := o }) (m := s.image) i rfl
    fun t ⟨_, _, hi⟩ => by rw [← hi, State.reframe]

/-- Settles O43: a stopping iteration reads the length and the token at `PC`, an executing one its fetch window. -/
theorem stepReadsAtMostThreeTokens : Obligations.StepReadsAtMostThreeTokens := by
  intro s m hlen htok
  obtain ⟨hr, hs⟩ | ⟨hr, hl, hs⟩ | ⟨hr, hl, hp, hs⟩ | ⟨hr, hl, hp, tok, ht, -⟩ := step_cases s
  · rw [hs, step_stopped (s := { s with image := m }) hr]; rfl
  · rw [hs, step_limit (s := { s with image := m }) hr hl]; rfl
  · have hp' : State.len { s with image := m } ≤ s.pc + 1 := hlen.trans_le hp
    rw [hs, step_missing_next (s := { s with image := m }) hr hl hp', State.haltKind_set_image hlen htok]
    rfl
  · obtain ⟨d, hd⟩ : ∃ d, decodeTokens s.fetchWindow = .ok d := ⟨_, decodeTokens_fetchWindow ht⟩
    have hd' := (congrArg decodeTokens (State.fetchWindow_set_image htok)).trans hd
    calc step { s with image := m }
      _ = mapNext (State.recordOp d) (exec d.instr { s.countIteration with image := m }) :=
        step_executes (s := { s with image := m }) hr hl (hp.trans_eq hlen.symm) hd'
      _ = mapNext (fun t => { t with image := m }) (mapNext (State.recordOp d) (exec d.instr s.countIteration)) := by
        rw [exec_set_image d.instr (s := s.countIteration) hlen]
        simp only [mapNext_mapNext, State.recordOp_set_image]
      _ = mapNext (fun t => { t with image := m }) (step s) := by rw [step_executes hr hl hp hd]

/-- Settles O44: `CUROP` is neither decoded nor executed, and no check of the run loop asks for it. -/
theorem coreNeverReadsCurop : Obligations.CoreNeverReadsCurop := by
  intro s t c h
  obtain ⟨hr, hs⟩ | ⟨hr, hl, hs⟩ | ⟨hr, hl, hp, hs⟩ | ⟨hr, hl, hp, tok, ht, -⟩ := step_cases s
  · rw [hs] at h; cases h; exact ⟨c, step_stopped (s := { s with curop := c }) hr⟩
  · rw [hs] at h; cases h; exact ⟨c, step_limit (s := { s with curop := c }) hr hl⟩
  · rw [hs] at h; cases h; exact ⟨c, step_missing_next (s := { s with curop := c }) hr hl hp⟩
  · obtain ⟨d, hd⟩ : ∃ d, decodeTokens s.fetchWindow = .ok d := ⟨_, decodeTokens_fetchWindow ht⟩
    rw [step_executes hr hl hp hd] at h
    obtain ⟨u, hu, rfl⟩ := mapNext_eq_next h
    refine ⟨(State.recordOp d { u with curop := c }).curop, ?_⟩
    calc step { s with curop := c }
      _ = mapNext (State.recordOp d) (exec d.instr { s.countIteration with curop := c }) :=
        step_executes (s := { s with curop := c }) hr hl hp hd
      _ = .next (State.recordOp d { u with curop := c }) := by rw [exec_set_curop, hu]; rfl
      _ = .next { u.recordOp d with curop := (State.recordOp d { u with curop := c }).curop } :=
        congrArg Host.Outcome.next (State.recordOp_set_curop d u c)

end

section
/-! Construction inverted (`70_reset_and_hazards.md` R250-R253): what a construction that succeeds has checked, and what
its register overrides leave in each register. -/

namespace Sys2Proof.Machine

/-! ### The checks -/

theorem ensure_eq_ok_iff {ok : Bool} {e : HostError} {u : Unit} : ensure ok e = .ok u ↔ ok = true := by
  cases ok <;> simp [ensure]

theorem host_bind_eq_ok_iff {α β : Type} {r : Except HostError α} {k : α → Except HostError β} {b : β} :
    (r >>= k) = .ok b ↔ ∃ a, r = .ok a ∧ k a = .ok b := by
  cases r with
  | ok a => exact ⟨fun h => ⟨a, rfl, h⟩, fun ⟨_, ha, h⟩ => by cases ha; exact h⟩
  | error e => exact ⟨nofun, fun ⟨_, ha, _⟩ => nomatch ha⟩

theorem checkBuild_eq_ok_iff {p : Params} {u : Unit} : checkBuild p = .ok u ↔ p.wf = true := by
  simp [checkBuild, host_bind_eq_ok_iff, ensure_eq_ok_iff, Params.wf, and_assoc]

/-- R62: under a build's own bounds the two checks are the bounds of `PC_WIDTH`. -/
theorem checkPcWidth_eq_ok_iff {p : Params} (hp : p.wf = true) {m : Image} {pc : Nat} {u : Unit} :
    checkPcWidth p m pc = .ok u ↔ fitsPcWidth p.pcWidth m.length pc = true := by
  cases hw : p.pcWidth with
  | unbounded => simp [checkPcWidth, host_bind_eq_ok_iff, ensure_eq_ok_iff, fitsPcLength, fitsPcWidth, hw]
  | finite w =>
    have h8 : 8 ≤ w := by
      simp only [Params.wf, Params.pcWidthOk, hw, Bool.and_eq_true, decide_eq_true_eq] at hp
      exact hp.2.1
    simp [checkPcWidth, host_bind_eq_ok_iff, ensure_eq_ok_iff, fitsPcLength, fitsPcWidth, hw, h8]

/-- What construction accepts, and the core it then gives (R45, R251, R252). -/
theorem construct_eq_ok_iff {p : Params} {m : Image} {o : Options} {s : State} :
    construct p m o = .ok s ↔
      p.wf = true ∧ fitsPcWidth p.pcWidth m.length o.pc = true ∧ fitsWidth p.dataWidth o.inc = true ∧
        fitsWidth p.dataWidth o.acc = true ∧
        ∃ regs, applyOverrides p (List.replicate p.numRegs 0) o.registers = .ok regs ∧
          s = { pc := o.pc, inc := o.inc, acc := o.acc, regs := regs, cycles := 0, curop := none,
                status := .running, image := m, params := p } := by
  simp only [construct, host_bind_eq_ok_iff, checkBuild_eq_ok_iff, ensure_eq_ok_iff, exists_const]
  refine and_congr_right fun hp => ?_
  simp only [checkPcWidth_eq_ok_iff hp, exists_const, pure, Except.pure, Except.ok.injEq, eq_comm (a := s)]

/-! ### The register overrides (R251) -/

theorem applyOverride_eq_ok_iff {p : Params} {regs regs' : List Int} {k : Nat} {v : Int} :
    applyOverride p regs k v = .ok regs' ↔
      k < p.numRegs ∧ fitsWidth p.dataWidth v = true ∧ regs' = regs.set k (wrap p.dataWidth v) := by
  unfold applyOverride
  split
  next hk =>
    split
    next hv => simp [hk, hv, eq_comm]
    next hv => simp [hv]
  next hk => simp [hk]

theorem applyOverrides_length {p : Params} {l : List (Nat × Int)} {regs regs' : List Int}
    (h : applyOverrides p regs l = .ok regs') : regs'.length = regs.length := by
  induction l generalizing regs with
  | nil => cases h; rfl
  | cons x rest ih =>
    obtain ⟨mid, hx, hrest⟩ := host_bind_eq_ok_iff.1 h
    obtain ⟨-, -, rfl⟩ := applyOverride_eq_ok_iff.1 hx
    simpa using ih hrest

/-- The value of the last override of a register, if it has one. -/
def lastOverride (l : List (Nat × Int)) (i : Nat) : Option Int :=
  (l.reverse.find? fun x => decide (x.1 = i)).map Prod.snd

theorem lastOverride_cons (k : Nat) (v : Int) (rest : List (Nat × Int)) (i : Nat) :
    lastOverride ((k, v) :: rest) i = (lastOverride rest i).or (if k = i then some v else none) := by
  by_cases hk : k = i
  · simp only [lastOverride, List.reverse_cons, List.find?_append, Option.map_or, List.find?_singleton, hk, decide_true,
      if_true, Option.map_some]
  · simp [lastOverride, List.find?_append, hk]

/-- A later override of the same register wins, and a value that fits is not changed by the write. -/
theorem applyOverrides_getD {p : Params} (hw : p.dataWidth ≠ .finite 0) {l : List (Nat × Int)}
    {regs regs' : List Int} (hlen : regs.length = p.numRegs) (h : applyOverrides p regs l = .ok regs') (i : Nat) :
    regs'.getD i 0 = (lastOverride l i).getD (regs.getD i 0) := by
  induction l generalizing regs with
  | nil => cases h; rfl
  | cons x rest ih =>
    obtain ⟨k, v⟩ := x
    obtain ⟨mid, hx, hrest⟩ := host_bind_eq_ok_iff.1 h
    obtain ⟨hk, hv, rfl⟩ := applyOverride_eq_ok_iff.1 hx
    rw [ih (by simpa using hlen) hrest, lastOverride_cons, wrap_eq_of_fits hw hv]
    have hset : (regs.set k v).getD i 0 = if k = i then v else regs.getD i 0 := by
      rw [List.getD_eq_getElem?_getD, List.getElem?_set]
      split
      next => simp [hlen, hk]
      next => exact List.getD_eq_getElem?_getD.symm
    cases lastOverride rest i with
    | some w => rfl
    | none => rw [hset]; split <;> rfl

end Sys2Proof.Machine

open Sys2Proof Sys2Proof.Machine

/-- Settles O53. -/
theorem constructionGivesTheResetTable : Obligations.ConstructionGivesTheResetTable := by
  intro p m o s h
  obtain ⟨hp, -, -, -, regs, hregs, rfl⟩ := construct_eq_ok_iff.1 h
  have hlen : (List.replicate p.numRegs (0 : Int)).length = p.numRegs := List.length_replicate
  refine ⟨rfl, rfl, rfl, rfl, rfl, rfl, rfl, rfl, (applyOverrides_length hregs).trans hlen, fun i hi => ?_⟩
  calc regs.getD i 0
    _ = (lastOverride o.registers i).getD ((List.replicate p.numRegs 0).getD i 0) :=
      applyOverrides_getD (Params.wf_dataWidth hp) hlen hregs i
    _ = (lastOverride o.registers i).getD 0 := by rw [List.getD_replicate _ hi]

/-- Settles O54: the checks of the default options succeed, and no override is applied. -/
theorem resetIsTheDefaultConstruction : Obligations.ResetIsTheDefaultConstruction := rfl

end

section
/-! Runs and the program image (`20_memory.md` R60, R62, R71): what a step that answers a next state did, said once, and
the two things it keeps over a run: the image with the parameters, and the bounds of a finite `PC_WIDTH`. -/

namespace Sys2Proof.Machine

/-- A step that answers a next state wrote `CYCLES` and `STATUS` alone (the core had stopped, stops, or raises), or
executed the instruction at `PC`, which completed. -/
theorem step_eq_next_cases {s t : State} (h : step s = .next t) :
    (∃ c st, t = { s with cycles := c, status := st }) ∨
    (s.pc + 1 < s.len ∧ ∃ tok d u,
      Completes s.countIteration (instrOfToken tok (s.view (s.pc + 1)) (s.view (s.pc + 2))) u ∧
        t = u.recordOp d) := by
  obtain ⟨-, hs⟩ | ⟨-, -, hs⟩ | ⟨-, -, -, hs⟩ | ⟨-, -, hp, tok, -, hs⟩ := step_cases s
  all_goals rw [hs] at h
  · cases h; exact .inl ⟨s.cycles, s.status, rfl⟩
  · cases h; exact .inl ⟨_, _, rfl⟩
  · cases h; exact .inl ⟨_, _, rfl⟩
  · obtain ⟨u, hu, rfl⟩ := mapNext_eq_next h
    obtain hc | ⟨f, -, rfl⟩ := exec_eq_next_cases hu
    · exact .inr ⟨hp, tok, _, u, hc, rfl⟩
    · rw [State.recordOp_of_not_running (by simp)]
      exact .inl ⟨_, _, rfl⟩

/-- R71: no step writes the image or the parameters. -/
theorem step_image_params {s t : State} (h : step s = .next t) : t.image = s.image ∧ t.params = s.params := by
  obtain ⟨_, _, rfl⟩ | ⟨-, _, _, u, hc, rfl⟩ := step_eq_next_cases h
  · exact ⟨rfl, rfl⟩
  · simp [hc.sameRun.image, hc.sameRun.params]

/-- Where an instruction that completes leaves `PC` (R39): it falls through, `halt` goes to a token of the image, or a
branch goes to the byte of an operand. -/
theorem Completes.pc_cases {s t : State} {i : Instr} (h : Completes s i t) :
    t.pc ≤ s.pc + 3 ∨ t.pc < s.len ∨ ∃ n, ∃ o ∈ i.operands, useByte s n o = .ok t.pc := by
  cases h with
  | @b1 addr a ha =>
    exact .inr (.inr ⟨.one, addr, by simp [Instr.operands], (useAddr_eq_useByte s .one addr).symm.trans ha⟩)
  | @b2 _ addr _ a _ ha | @b3 _ addr _ a _ ha =>
    have hbyte := (useAddr_eq_useByte s .two addr).symm.trans ha
    unfold State.branch
    split
    · exact .inr (.inr ⟨.two, addr, by simp [Instr.operands], hbyte⟩)
    · exact .inl le_rfl
  | @halt last hl => exact .inr (.inl (show last < s.len by omega))
  | _ => exact .inl (by simp)

/-- The bounds of a `PC_WIDTH` of `p` bits over an image of the build's tokens (R62). -/
structure State.PcBounded (p : Nat) (s : State) : Prop where
  tokenBits : s.params.tokenBits ≤ p
  tokensFit : Memory.tokensFit s.params s.image = true
  len : s.len ≤ 2 ^ p - 2
  pc : s.pc < 2 ^ p

/-- R62's argument: the two tokens the bound leaves free are room for the longest fall-through, every token of the image
has an index under 2^p, and every byte of the build is under 2^p. -/
theorem State.PcBounded.pc_lt_of_step {p : Nat} {s t : State} (hb : s.PcBounded p) (h : step s = .next t) :
    t.pc < 2 ^ p := by
  have hlen := hb.len
  obtain ⟨_, _, rfl⟩ | ⟨hnext, tok, _, u, hc, rfl⟩ := step_eq_next_cases h
  · exact hb.pc
  · rw [State.recordOp_pc]
    obtain hfall | hlast | ⟨n, o, ho, htarget⟩ := hc.pc_cases
    · have hfall' : u.pc ≤ s.pc + 3 := hfall
      omega
    · have hlast' : u.pc < s.len := hlast
      omega
    · have hfit : o.fits s.params.tokenBits = true := by
        obtain rfl | rfl := mem_operands_instrOfToken ho <;> exact State.view_fits hb.tokensFit _
      exact (useByte_lt hfit htarget).trans_le (Nat.pow_le_pow_right (by decide) hb.tokenBits)

theorem State.PcBounded.of_step {p : Nat} {s t : State} (hb : s.PcBounded p) (h : step s = .next t) :
    t.PcBounded p := by
  obtain ⟨himage, hparams⟩ := step_image_params h
  exact ⟨hparams ▸ hb.tokenBits, by rw [himage, hparams]; exact hb.tokensFit,
    (State.len_congr himage).trans_le hb.len, hb.pc_lt_of_step h⟩

end Sys2Proof.Machine

open Sys2Proof Sys2Proof.Machine

/-- Settles O42: every step keeps the image and the parameters. -/
theorem imageIsImmutable : Obligations.ImageIsImmutable := by
  intro k s t h
  refine steps_induction (P := fun u => u.image = s.image ∧ u.params = s.params) ?_ k s t ⟨rfl, rfl⟩ h
  rintro u v ⟨himage, hparams⟩ huv
  obtain ⟨himage', hparams'⟩ := step_image_params huv
  exact ⟨himage'.trans himage, hparams'.trans hparams⟩

/-- Settles O51: every step keeps the bounds of `PC_WIDTH`. -/
theorem finitePcNeverWraps : Obligations.FinitePcNeverWraps := by
  intro k p s t _ _ hbits hfit hlen hpc h
  have hb : s.PcBounded p := ⟨hbits, hfit, hlen, hpc⟩
  exact (steps_induction (fun _ _ hu => hu.of_step) k s t hb h).pc

end

section
/-! The decoder and the encoder (`30_encoding.md` R82, R83, R89, R90): an instruction is its opcode with the views it uses,
and the tokens of its operands read back as those views. -/

namespace Sys2Proof

/-! ### The opcode map (R83) -/

/-- The 14 opcodes in the order of the opcode map. -/
def Opcode.all : List Opcode := [.b1, .b2, .b3, .c0, .c1, .c2, .c3, .c4, .c5, .c6, .d0, .d1, .d2, .halt]

/-- The row of an opcode in the opcode map. -/
def Opcode.row (op : Opcode) : Token × Opcode × Format × List OperandKind :=
  (op.token, op, op.format, op.operandKinds)

theorem Opcode.mem_all (op : Opcode) : op ∈ Opcode.all := by
  cases op <;> decide

theorem Opcode.mem_rows_iff {t : Token} {op : Opcode} {f : Format} {ks : List OperandKind} :
    (t, op, f, ks) ∈ Opcode.all.map Opcode.row ↔ op.token = t ∧ op.format = f ∧ op.operandKinds = ks := by
  constructor
  · intro h
    obtain ⟨op', -, hrow⟩ := List.mem_map.1 h
    cases hrow
    exact ⟨rfl, rfl, rfl⟩
  · rintro ⟨rfl, rfl, rfl⟩
    exact List.mem_map_of_mem op.mem_all

/-- R92: the bytes outside the 13 lie in four ranges. -/
theorem not_mem_opcodeBytes_iff (b : Byte) :
    b ∉ opcodeBytes ↔ b ≤ 0xB0 ∨ (0xB4 ≤ b ∧ b ≤ 0xBF) ∨ (0xC7 ≤ b ∧ b ≤ 0xCF) ∨ 0xD3 ≤ b := by
  simp only [opcodeBytes, Byte, List.mem_cons, List.not_mem_nil, or_false]
  omega

/-- R92: of the values under a bound above the 13, all but the 13. -/
theorem length_filter_illegal {n : Nat} (hn : 0xD2 < n) :
    ((List.range n).filter fun b => (Opcode.ofByte? b).isNone).length = n - 13 := by
  have hperm : ((List.range n).filter fun b => !(Opcode.ofByte? b).isNone).Perm opcodeBytes := by
    refine (List.perm_ext_iff_of_nodup (List.nodup_range.filter _) (by decide)).2 fun b => ?_
    have hle : ∀ c ∈ opcodeBytes, c ≤ 0xD2 := by decide
    have hlt : b ∈ opcodeBytes → b < n := fun hb => (hle b hb).trans_lt hn
    simpa [Option.isSome_iff_ne_none, Opcode.ofByte?_eq_none_iff] using hlt
  have hthirteen : opcodeBytes.length = 13 := rfl
  have hsplit := List.length_eq_length_filter_add (l := List.range n) fun b => (Opcode.ofByte? b).isNone
  rw [hperm.length_eq, List.length_range, hthirteen] at hsplit
  exact (Nat.sub_eq_of_eq_add hsplit).symm

/-! ### An instruction is its opcode with the views it uses -/

theorem Instr.eq_illegal_of_opcode? {i : Instr} (h : i.opcode? = none) : ∃ b, i = .illegal b := by
  cases i with
  | illegal b => exact ⟨b, rfl⟩
  | _ => cases h

theorem Instr.eq_instr_of_operands {i : Instr} {op : Opcode} {o1 o2 : OperandView} (hop : i.opcode? = some op)
    (h1 : ∀ o, i.operands[0]? = some o → o = o1) (h2 : ∀ o, i.operands[1]? = some o → o = o2) :
    i = op.instr o1 o2 := by
  cases i with
  | b2 reg addr | b3 val addr =>
    cases hop
    obtain rfl := h1 _ rfl
    obtain rfl := h2 _ rfl
    rfl
  | b1 o | c0 o | c1 o | d0 o | d1 o | d2 o =>
    cases hop
    exact congrArg _ (h1 _ rfl)
  | illegal => cases hop
  | _ => cases hop; rfl

theorem Opcode.instr_operands_length (op : Opcode) (o1 o2 : OperandView) :
    (op.instr o1 o2).operands.length + 1 = op.length := by
  cases op <;> rfl

theorem instrOfToken_of_illegal {b : Byte} (h : Opcode.ofByte? b = none) (o1 o2 : OperandView) :
    instrOfToken (.byte b) o1 o2 = .illegal b := by
  simp [instrOfToken, h]

/-! ### The decoder and the encoder -/

theorem decodeTokens_cons (t : Token) (rest : List Token) :
    decodeTokens (t :: rest) =
      .ok ⟨instrOfToken t (viewOf rest[0]?) (viewOf rest[1]?), viewOf rest[0]?, viewOf rest[1]?⟩ := rfl

theorem encode_of_opcode? {i : Instr} {op : Opcode} (h : i.opcode? = some op) :
    encode i = op.token :: i.operands.flatMap OperandView.tokens := by
  cases i <;> cases h <;> simp [encode, Instr.operands]

/-! ### The tokens of views and the views of tokens -/

theorem viewOf_isPresent (t : Token) : (viewOf (some t)).isPresent = true := by
  cases t <;> rfl

theorem tokens_viewOf (k : Option Token) : (viewOf k).tokens = k.toList := by
  rcases k with _ | (_ | _) <;> rfl

theorem viewOf_fits {bits : Nat} {k : Option Token} (h : ∀ t ∈ k, t.fits bits = true) :
    (viewOf k).fits bits = true := by
  rcases k with _ | (b | _)
  · rfl
  · exact h (.byte b) rfl
  · rfl

theorem tokens_of_isPresent {o : OperandView} (h : o.isPresent = true) :
    ∃ t, o.tokens = [t] ∧ viewOf (some t) = o := by
  cases o with
  | absent => cases h
  | sentinel => exact ⟨.halt, rfl, rfl⟩
  | byte b => exact ⟨.byte b, rfl, rfl⟩

theorem eq_absent_of_not_isPresent {o : OperandView} (h : ¬ o.isPresent = true) : o = .absent := by
  cases o with
  | absent => rfl
  | sentinel | byte => exact absurd rfl h

/-- The tokens of operands read back as the operands: only the last may be absent, and then nothing follows it. -/
theorem viewOf_flatMap_tokens_append {os : List OperandView} {rest : List Token}
    (hpresent : ∀ o ∈ os.dropLast, o.isPresent = true) (habsent : .absent ∈ os → rest = [])
    {n : Nat} {o : OperandView} (hn : os[n]? = some o) :
    viewOf (os.flatMap OperandView.tokens ++ rest)[n]? = o := by
  induction os generalizing n with
  | nil => cases hn
  | cons a os ih =>
    by_cases ha : a.isPresent = true
    · obtain ⟨t, htokens, hview⟩ := tokens_of_isPresent ha
      rw [List.flatMap_cons, htokens]
      cases n with
      | zero => cases hn; exact hview
      | succ n =>
        refine ih (fun o ho => hpresent o ?_) (fun h => habsent (List.mem_cons_of_mem a h)) hn
        rw [List.dropLast_cons_of_ne_nil (by rintro rfl; cases ho)]
        exact List.mem_cons_of_mem a ho
    · obtain rfl := eq_absent_of_not_isPresent ha
      obtain rfl := habsent List.mem_cons_self
      obtain rfl : os = [] := by
        cases os with
        | nil => rfl
        | cons => exact absurd (hpresent .absent (by simp)) ha
      cases n with
      | zero => cases hn; rfl
      | succ n => cases hn

/-! ### Well-formed instructions (R195, R92, R9) -/

theorem Instr.isPresent_of_mem_dropLast {bits : Nat} {i : Instr} (h : i.wellFormed bits = true) :
    ∀ o ∈ i.operands.dropLast, o.isPresent = true := by
  cases i with
  | b2 reg addr | b3 val addr =>
    simp only [Instr.wellFormed, OperandView.firstWellFormed, Bool.and_eq_true] at h
    simpa [Instr.operands] using h.1.1
  | _ => exact nofun

theorem Opcode.instr_wellFormed {bits : Nat} {o1 o2 : OperandView} (op : Opcode)
    (h1 : o1.firstWellFormed bits = true) (h2 : o2.fits bits = true) : (op.instr o1 o2).wellFormed bits = true := by
  cases op <;> simp [Opcode.instr, Instr.wellFormed, h1, h2]

theorem Instr.illegal_wellFormed_iff {bits : Nat} {b : Byte} :
    (Instr.illegal b).wellFormed bits = true ↔ Opcode.ofByte? b = none ∧ b < 2 ^ bits := by
  rw [Opcode.ofByte?_eq_none_iff]
  exact decide_eq_true_iff

/-- What the decoder reads of tokens of the build, where operand 1 exists. -/
theorem instrOfToken_wellFormed {bits : Nat} {t : Token} {o1 o2 : OperandView} (ht : t.fits bits = true)
    (h1 : o1.firstWellFormed bits = true) (h2 : o2.fits bits = true) :
    (instrOfToken t o1 o2).wellFormed bits = true := by
  obtain ⟨op, -, hi⟩ | ⟨b, rfl, hb, hi⟩ := instrOfToken_cases t o1 o2
  · rw [hi]; exact op.instr_wellFormed h1 h2
  · rw [hi]; exact Instr.illegal_wellFormed_iff.2 ⟨hb, of_decide_eq_true ht⟩

/-! ### Each undoes the other -/

theorem decodeTokens_encode_append {bits : Nat} {i : Instr} {rest : List Token} (hwf : i.wellFormed bits = true)
    (habsent : .absent ∈ i.operands → rest = []) :
    decodeTokens (encode i ++ rest) =
      .ok ⟨i, viewOf (encode i ++ rest)[1]?, viewOf (encode i ++ rest)[2]?⟩ := by
  cases hop : i.opcode? with
  | none =>
    obtain ⟨b, rfl⟩ := Instr.eq_illegal_of_opcode? hop
    have hb := (Instr.illegal_wellFormed_iff.1 hwf).1
    simp only [encode, List.singleton_append, decodeTokens_cons, instrOfToken_of_illegal hb, List.getElem?_cons_succ]
  | some op =>
    have hviews : ∀ (n : Nat) (o : OperandView), i.operands[n]? = some o →
        o = viewOf (i.operands.flatMap OperandView.tokens ++ rest)[n]? :=
      fun n o hn => (viewOf_flatMap_tokens_append (Instr.isPresent_of_mem_dropLast hwf) habsent hn).symm
    simp only [encode_of_opcode? hop, List.cons_append, decodeTokens_cons, instrOfToken_token,
      ← Instr.eq_instr_of_operands hop (hviews 0) (hviews 1), List.getElem?_cons_succ]

/-- The operands of a decoded instruction stand in the tokens after its opcode. -/
theorem encode_instrOfToken_isPrefix (t : Token) (rest : List Token) :
    encode (instrOfToken t (viewOf rest[0]?) (viewOf rest[1]?)) <+: t :: rest := by
  obtain ⟨op, hop, hi⟩ | ⟨b, rfl, -, hi⟩ := instrOfToken_cases t (viewOf rest[0]?) (viewOf rest[1]?)
  · obtain rfl := (Opcode.ofToken?_eq_some_iff t op).1 hop
    rw [hi, encode_of_opcode? (op.instr_opcode? _ _), Opcode.instr_operands, List.prefix_cons_inj]
    calc ([viewOf rest[0]?, viewOf rest[1]?].take (op.length - 1)).flatMap OperandView.tokens
      _ <+: [viewOf rest[0]?, viewOf rest[1]?].flatMap OperandView.tokens := (List.take_prefix _ _).flatMap _
      _ = rest.take 2 := by
        simp only [List.flatMap_cons, List.flatMap_nil, tokens_viewOf]
        rcases rest with _ | ⟨a, _ | ⟨b, rest⟩⟩ <;> rfl
      _ <+: rest := List.take_prefix _ _
  · rw [hi]; exact ⟨rest, rfl⟩

end Sys2Proof

open Sys2Proof Sys2Proof.Machine

/-- Settles O5: the operands' tokens read back as the operands, which with the opcode are the instruction. -/
theorem decodeOfEncode : Obligations.DecodeOfEncode :=
  fun _ _ _ hwf habsent => decodeTokens_encode_append hwf habsent

/-- Settles O6. -/
theorem encodeOfDecode : Obligations.EncodeOfDecode := by
  intro ts d h
  cases ts with
  | nil => cases h
  | cons t rest =>
    rw [decodeTokens_cons] at h
    cases h
    refine ⟨List.prefix_iff_eq_take.1 (encode_instrOfToken_isPrefix t rest), fun hlen bits hfits => ?_⟩
    have hview : ∀ n, (viewOf rest[n]?).fits bits = true := fun n =>
      viewOf_fits fun k hk => hfits k (List.mem_cons_of_mem t (List.mem_of_getElem? hk))
    have hpresent : (viewOf rest[0]?).isPresent = true := by
      cases rest with
      | nil => simp at hlen
      | cons a _ => exact viewOf_isPresent a
    exact instrOfToken_wellFormed (hfits t List.mem_cons_self) (Bool.and_eq_true_iff.2 ⟨hpresent, hview 0⟩) (hview 1)

/-- Settles O4. -/
theorem decoderReadsPcAndTwoViews : Obligations.DecoderReadsPcAndTwoViews := by
  refine ⟨fun s i => ⟨fun hlen => ?_, fun h => ?_, fun b h => ?_, State.view_ne_absent,
    fun b hfit hview => State.view_byte_lt hfit hview⟩, fun s t ht => ⟨_, decodeTokens_fetchWindow ht,
      instrOfToken_opcode? t _ _, ?_, fun o ho => ?_, fun o ho => ?_, fun op hop => ?_⟩⟩
  · have hnone : s.tok i = none := List.getElem?_eq_none hlen
    rw [State.view, hnone, viewOf]
  · rw [State.view, h, viewOf]
  · rw [State.view, h, viewOf]
  · rintro b rfl hb
    exact instrOfToken_of_illegal hb _ _
  · exact (Option.some.inj (instrOfToken_operands_eq_some ho).1).symm
  · exact (Option.some.inj (instrOfToken_operands_eq_some ho).1).symm
  · rw [instrOfToken_opcode?] at hop
    obtain rfl := (Opcode.ofToken?_eq_some_iff t op).1 hop
    rw [instrOfToken_token, Opcode.instr_operands_length]

/-- Settles O2: the table lists the rows of the 14 opcodes. -/
theorem opcodeMapIsTheTable : Obligations.OpcodeMapIsTheTable := by
  intro t op f ks
  rw [Opcode.ofToken?_eq_some_iff]
  exact Opcode.mem_rows_iff.symm

/-- Settles O1. -/
theorem specWordsDecode : Obligations.SpecWordsDecode := ⟨rfl, rfl, rfl, rfl, rfl, rfl⟩

end

section
/-! When an instruction raises (`30_encoding.md` R89, R94): by its opcode byte or by an operand that its format has, never
by a view that it does not use; and the iteration at an illegal byte (R92). -/

namespace Sys2Proof.Machine

/-! ### An error of operand 1 -/

theorem complete_bind_of_error {α : Type} {s : State} {r : Except StepError α} {f : StepError} (h : r = .error f)
    (k : α → Except StepError State) : complete s (r >>= k) = .next (s.raise f) := by
  rw [h, bind_error, complete_error]

theorem exec_of_operandOne_error {s : State} {i : Instr} {o : OperandView} {f : StepError}
    (ho : i.operands[0]? = some o) (h : useByte s .one o = .error f) : exec i s = .next (s.raise f) := by
  obtain ⟨hval, haddr, hreg⟩ := use_error s .one h
  cases i with
  | b1 => cases ho; exact complete_bind_of_error haddr _
  | b3 | c1 | d1 => cases ho; exact complete_bind_of_error hval _
  | b2 | c0 | d0 | d2 => cases ho; exact complete_bind_of_error hreg _
  | _ => cases ho

/-! ### An instruction that raises nothing -/

/-- On an image that has a token, an instruction that no check stops completes. -/
theorem exec_completes_of_not_raises {s : State} {i : Instr} (hlen : s.len ≠ 0) (h : ∀ f, ¬ Raises s i f) :
    ∃ t, exec i s = .next t ∧ Completes s i t := by
  have hnext : ∃ t, exec i s = .next t := by
    obtain ⟨f, hf⟩ | ⟨t, ht, -⟩ | ⟨-, hzero, -⟩ := exec_cases i s
    · exact ⟨_, hf⟩
    · exact ⟨t, ht⟩
    · exact absurd hzero hlen
  obtain ⟨t, ht⟩ := hnext
  obtain hc | ⟨f, hf, -⟩ := exec_eq_next_cases ht
  · exact ⟨t, ht, hc⟩
  · exact absurd hf (h f)

theorem instr_ne_illegal (op : Opcode) (o1 o2 : OperandView) (b : Byte) : op.instr o1 o2 ≠ .illegal b := by
  cases op <;> nofun

/-- R89: a one-token instruction checks no view. -/
theorem not_raises_of_format_T1 {s : State} {op : Opcode} (hT1 : op.format = .T1) (o1 o2 : OperandView)
    (f : StepError) : ¬ Raises s (op.instr o1 o2) f := by
  have hops : (op.instr o1 o2).operands = [] := by
    simp [Opcode.instr_operands, Opcode.length, Format.length, hT1]
  intro h
  cases h with
  | illegalByte hi => exact instr_ne_illegal op o1 o2 _ hi
  | operandOne ho | operandTwo ho | register _ _ ho => rw [hops] at ho; cases ho

/-- R89: a two-token instruction checks its own operand alone. -/
theorem not_raises_of_format_T2 {s : State} {op : Opcode} {o1 : OperandView} {b : Byte} (hT2 : op.format = .T2)
    (hb : useByte s .one o1 = .ok b) (hbank : op ∈ registerOpcodes → b < s.numRegs) (o2 : OperandView)
    (f : StepError) : ¬ Raises s (op.instr o1 o2) f := by
  have hops : (op.instr o1 o2).operands = [o1] := by
    simp [Opcode.instr_operands, Opcode.length, Format.length, hT2]
  intro h
  cases h with
  | illegalByte hi => exact instr_ne_illegal op o1 o2 _ hi
  | operandOne ho hf =>
    rw [hops] at ho; cases ho
    rw [hb] at hf; cases hf
  | register hop hmem ho hb' hle =>
    rw [hops] at ho; cases ho
    rw [hb] at hb'; cases hb'
    rw [Opcode.instr_opcode?] at hop; cases hop
    exact Nat.not_lt.2 hle (hbank hmem)
  | operandTwo ho hf => rw [hops] at ho; cases ho

/-- The two-token instructions with a register operand (R83). -/
theorem mem_registerOpcodes_of_format_T2 {op : Opcode} (hT2 : op.format = .T2) (h : op ∈ registerOpcodes) :
    op ∈ [Opcode.c0, .d0, .d2] := by
  cases op with
  | c0 | d0 | d2 => decide
  | b2 => cases hT2
  | _ => exact absurd h (by decide)

/-- R194: an iteration whose instruction raises nothing leaves the core running and records the operation. -/
theorem step_of_not_raises {s : State} {op : Opcode} (hr : s.status = .running)
    (hl : s.cycles + 1 ≤ s.params.cycleLimit) (hp : s.pc + 1 < s.len) (ht : s.tok s.pc = some op.token)
    (h : ∀ f, ¬ Raises s.countIteration (op.instr (s.view (s.pc + 1)) (s.view (s.pc + 2))) f) :
    ∃ t, step s = .next t ∧ t.status = .running ∧
      t.curop = some ⟨op, s.view (s.pc + 1), s.view (s.pc + 2)⟩ := by
  have hlen : s.countIteration.len ≠ 0 := (Nat.zero_lt_of_lt hp).ne'
  obtain ⟨t, hexec, hc⟩ := exec_completes_of_not_raises hlen h
  have hrun : t.status = .running := hc.sameRun.status.trans hr
  have hd := decodeTokens_fetchWindow ht
  rw [instrOfToken_token] at hd
  refine ⟨_, (step_executes hr hl hp hd).trans (congrArg _ hexec), ?_, ?_⟩
  · rw [State.recordOp_status, hrun]
  · rw [State.recordOp_curop, if_pos hrun, recordedOp, Opcode.instr_opcode?, Option.map_some]

/-- R92, R214: an iteration at an illegal byte. -/
theorem step_illegal {s : State} {b : Byte} (hr : s.status = .running) (hl : s.cycles + 1 ≤ s.params.cycleLimit)
    (hp : s.pc + 1 < s.len) (ht : s.tok s.pc = some (.byte b)) (hb : Opcode.ofByte? b = none) :
    step s = .next (s.countIteration.raise (.unsupportedOpcode (.byte b) s.pc)) := by
  rw [step_executes hr hl hp (decodeTokens_fetchWindow ht), instrOfToken_of_illegal hb]
  exact congrArg _ (State.recordOp_of_not_running (by simp) _)

end Sys2Proof.Machine

open Sys2Proof Sys2Proof.Machine

/-- Settles O3: the ranges are the bytes outside the 13, and such a byte decodes to an instruction that raises. -/
theorem illegalBytesRaiseUnsupportedOpcode : Obligations.IllegalBytesRaiseUnsupportedOpcode := by
  refine ⟨fun b => ?_, ?_, fun s b hr hl hp ht hb => step_illegal hr hl hp ht hb⟩
  · rw [Opcode.ofByte?_eq_none_iff, not_mem_opcodeBytes_iff]
  · exact length_filter_illegal (n := 2 ^ Params.reference.tokenBits) (by decide)

/-- Settles O29: neither format's instruction raises. -/
theorem unusedViewsNeverFault : Obligations.UnusedViewsNeverFault := by
  intro s k op hr hl hp ht hop hformat
  obtain rfl := (Opcode.ofToken?_eq_some_iff k op).1 hop
  refine step_of_not_raises hr hl hp ht ?_
  obtain hT1 | ⟨hT2, b, hb, hbank⟩ := hformat
  · exact not_raises_of_format_T1 hT1 _ _
  · exact not_raises_of_format_T2 (s := s.countIteration) hT2 hb
      (fun h => hbank (mem_registerOpcodes_of_format_T2 hT2 h)) _

/-- Settles O27: the three operand checks read the sentinel as they read `Byte 00`. -/
theorem sentinelReadsAsZeroUnderZeroSetting : Obligations.SentinelReadsAsZeroUnderZeroSetting := by
  intro s hzero
  obtain ⟨hval, haddr, hreg⟩ := use_sentinel_zero s .one hzero
  obtain ⟨-, haddr2, -⟩ := use_sentinel_zero s .two hzero
  simp only [exec, execB1, execB2, execB3, execC0, execC1, execD0, execD1, execD2, hval, haddr, hreg, haddr2,
    implies_true, and_self]

/-- Settles O28: an absent operand 1 fails the check that every kind shares. -/
theorem absentOperandOneRaises : Obligations.AbsentOperandOneRaises := by
  intro s i o hi
  have habsent : i.operands[0]? = some .absent := by
    simp only [List.mem_cons, List.not_mem_nil, or_false] at hi
    obtain rfl | rfl | rfl | rfl | rfl | rfl | rfl | rfl := hi <;> rfl
  exact exec_of_operandOne_error habsent (useByte_absent s .one)

end

section
/-! How program text spells a token (`30_encoding.md` R91, `70_reset_and_hazards.md` R261): two hexadecimal digits or
`halt`, each letter in either case. -/

namespace Sys2Proof.Machine

/-! ### Hexadecimal digits -/

/-- The digit that a listing writes (D27 (d)). -/
def upperHexDigit (x : Nat) : Char := x.digitChar.toUpper

theorem hexDigit?_upperHexDigit {x : Nat} (hx : x < 16) : hexDigit? (upperHexDigit x) = some x := by
  have hall : ∀ y < 16, hexDigit? (upperHexDigit y) = some y := by decide
  exact hall x hx

theorem hexDigit?_toUpper (c : Char) : hexDigit? c.toUpper = hexDigit? c := by
  by_cases hc : c.isLower
  · have hlower : ∀ n < 123, 97 ≤ n → hexDigit? (Char.ofNat n).toUpper = hexDigit? (Char.ofNat n) := by decide
    simp only [Char.isLower, Bool.and_eq_true, decide_eq_true_eq] at hc
    obtain ⟨hlo, hhi⟩ := hc
    simpa using hlower c.toNat (Nat.lt_succ_of_le hhi) hlo
  · rw [Char.toUpper_eq_of_not_isLower hc]

theorem toNat_lt_of_hexDigit? {c : Char} {x : Nat} (h : hexDigit? c = some x) : c.toNat < 103 := by
  have hle : ∀ d : Char, c ≤ d → d.toNat < 103 → c.toNat < 103 := fun d hc hd => Nat.lt_of_le_of_lt hc hd
  unfold hexDigit? at h
  split at h
  next hc => exact hle '9' hc.2 (by decide)
  next =>
    split at h
    next hc => exact hle 'f' hc.2 (by decide)
    next =>
      split at h
      next hc => exact hle 'F' hc.2 (by decide)
      next => cases h

theorem toUpper_of_hexDigit? {c : Char} {x : Nat} (h : hexDigit? c = some x) :
    x < 16 ∧ c.toUpper = upperHexDigit x := by
  have hall : ∀ n < 103, ∀ y ∈ hexDigit? (Char.ofNat n), y < 16 ∧ (Char.ofNat n).toUpper = upperHexDigit y := by
    decide
  have hc := hall c.toNat (toNat_lt_of_hexDigit? h)
  rw [Char.ofNat_toNat] at hc
  exact hc x h

/-- A digit's value, whatever its case. -/
theorem hexDigit?_eq_some_iff {c : Char} {x : Nat} :
    hexDigit? c = some x ↔ x < 16 ∧ c.toUpper = upperHexDigit x := by
  refine ⟨toUpper_of_hexDigit?, fun ⟨hx, hc⟩ => ?_⟩
  rw [← hexDigit?_toUpper, hc, hexDigit?_upperHexDigit hx]

theorem byteText_eq {b : Nat} (h : b < 256) : byteText b = [upperHexDigit (b / 16), upperHexDigit (b % 16)] := by
  by_cases hb : b < 16
  · have hdiv : b / 16 = 0 := Nat.div_eq_of_lt hb
    have hdigits : Nat.toDigits 16 b = [b.digitChar] := Nat.toDigits_of_lt_base hb
    rw [byteText, hexText, hdigits, hdiv, Nat.mod_eq_of_lt hb]
    rfl
  · have hdigits : Nat.toDigits 16 b = [(b / 16).digitChar, (b % 16).digitChar] := by
      rw [Nat.toDigits_eq_if (by decide), if_neg hb, Nat.toDigits_of_lt_base (by omega)]
      rfl
    rw [byteText, hexText, hdigits]
    rfl

/-! ### Tokens -/

theorem tokenOf_eq_halt_iff {t : Text} : tokenOf t = .ok .halt ↔ t.map Char.toLower = ['h', 'a', 'l', 't'] := by
  unfold tokenOf
  split
  next h => simp [h]
  next h =>
    simp only [h, iff_false]
    split
    · split <;> nofun
    · nofun

theorem tokenOf_pair {hi lo : Char} {x y : Nat} (hhi : hexDigit? hi = some x) (hlo : hexDigit? lo = some y) :
    tokenOf [hi, lo] = .ok (.byte (16 * x + y)) := by
  simp [tokenOf, hhi, hlo]

theorem pair_of_tokenOf {t : Text} {b : Byte} (h : tokenOf t = .ok (.byte b)) :
    ∃ hi lo x y, t = [hi, lo] ∧ hexDigit? hi = some x ∧ hexDigit? lo = some y ∧ 16 * x + y = b := by
  unfold tokenOf at h
  split at h
  next => cases h
  next =>
    split at h
    next _ hi lo _ =>
      split at h
      next _ _ x y hx hy => cases h; exact ⟨hi, lo, x, y, rfl, hx, hy, rfl⟩
      next => cases h
    next => cases h

/-- R261: the two digits that a listing writes for the byte, each in either case. -/
theorem tokenOf_eq_byte_iff {t : Text} {b : Nat} :
    tokenOf t = .ok (.byte b) ↔ b < 256 ∧ t.map Char.toUpper = byteText b := by
  constructor
  · intro h
    obtain ⟨hi, lo, x, y, rfl, hx, hy, rfl⟩ := pair_of_tokenOf h
    obtain ⟨hx, hhi⟩ := hexDigit?_eq_some_iff.1 hx
    obtain ⟨hy, hlo⟩ := hexDigit?_eq_some_iff.1 hy
    have hb : 16 * x + y < 256 := by omega
    have hdiv : (16 * x + y) / 16 = x := by omega
    have hmod : (16 * x + y) % 16 = y := by omega
    exact ⟨hb, by rw [byteText_eq hb, hdiv, hmod, ← hhi, ← hlo]; rfl⟩
  · rintro ⟨hb, ht⟩
    rw [byteText_eq hb] at ht
    obtain ⟨hi, _, rfl, hhi, htail⟩ := List.map_eq_cons_iff.1 ht
    obtain ⟨lo, _, rfl, hlo, hnil⟩ := List.map_eq_cons_iff.1 htail
    obtain rfl := List.map_eq_nil_iff.1 hnil
    have hx := hexDigit?_eq_some_iff.2 ⟨(by omega : b / 16 < 16), hhi⟩
    have hy := hexDigit?_eq_some_iff.2 ⟨(by omega : b % 16 < 16), hlo⟩
    rw [tokenOf_pair hx hy, Nat.div_add_mod]

end Sys2Proof.Machine

open Sys2Proof Sys2Proof.Machine

/-- Settles O57. -/
theorem tokenSpellingIgnoresCase : Obligations.TokenSpellingIgnoresCase :=
  ⟨fun _ _ => tokenOf_eq_byte_iff, fun _ => tokenOf_eq_halt_iff⟩

end

section
/-! The branches (`40_branches.md`): what each does once its operand checks have passed, the errors of its operands in
their order, and the iteration that runs `b1`. -/

namespace Sys2Proof.Machine

theorem complete_bind_of_ok {α : Type} {s : State} {r : Except StepError α} {a : α} (h : r = .ok a)
    (k : α → Except StepError State) : complete s (r >>= k) = complete s (k a) := by
  rw [h, bind_ok]

theorem State.branch_eq (s : State) (c : Prop) [Decidable c] (a : Nat) :
    s.branch (decide c) a = { s with pc := if c then a else s.pc + 3 } := by
  by_cases h : c
  · rw [decide_eq_true h, if_pos h]; rfl
  · rw [decide_eq_false h, if_neg h]; rfl

section Branches
variable {s : State} {reg val addr : OperandView} {r v a : Nat} {f : StepError}

theorem exec_b1_of_ok (ha : useAddr s .one addr = .ok a) : exec (.b1 addr) s = .next (s.setPc a) :=
  complete_bind_of_ok ha _

theorem exec_b2_of_ok (hr : useReg s .one reg = .ok r) (ha : useAddr s .two addr = .ok a) :
    exec (.b2 reg addr) s = .next { s with pc := if s.readReg r = s.acc then a else s.pc + 3 } := by
  rw [← s.branch_eq]
  exact (complete_bind_of_ok hr _).trans (complete_bind_of_ok ha _)

theorem exec_b3_of_ok (hv : useVal s .one val = .ok v) (ha : useAddr s .two addr = .ok a) :
    exec (.b3 val addr) s = .next { s with pc := if s.acc = (v : Int) then a else s.pc + 3 } := by
  rw [← s.branch_eq]
  exact (complete_bind_of_ok hv _).trans (complete_bind_of_ok ha _)

/-- The address is checked after the register, before the comparison (R113). -/
theorem exec_b2_of_operandTwo_error (hr : useReg s .one reg = .ok r) (h : useByte s .two addr = .error f) :
    exec (.b2 reg addr) s = .next (s.raise f) := by
  obtain ⟨-, haddr, -⟩ := use_error s .two h
  exact (complete_bind_of_ok hr _).trans (complete_bind_of_error haddr _)

/-- The address is checked after the immediate, before the comparison (R116). -/
theorem exec_b3_of_operandTwo_error (hv : useVal s .one val = .ok v) (h : useByte s .two addr = .error f) :
    exec (.b3 val addr) s = .next (s.raise f) := by
  obtain ⟨-, haddr, -⟩ := use_error s .two h
  exact (complete_bind_of_ok hv _).trans (complete_bind_of_error haddr _)

end Branches

/-- R114: values of the signed n-bit range are equal exactly when their n-bit patterns are. -/
theorem ofInt_eq_ofInt_iff_of_fits {n : Nat} (hn : 0 < n) {x y : Int} (hx : fitsWidth (.finite n) x = true)
    (hy : fitsWidth (.finite n) y = true) : BitVec.ofInt n x = BitVec.ofInt n y ↔ x = y := by
  obtain ⟨hxlo, hxhi⟩ := fitsWidth_finite_iff.1 hx
  obtain ⟨hylo, hyhi⟩ := fitsWidth_finite_iff.1 hy
  rw [← BitVec.toInt_inj, BitVec.toInt_ofInt_eq_self hn hxlo hxhi, BitVec.toInt_ofInt_eq_self hn hylo hyhi]

/-! ### The iteration of `b1` and the one after it -/

theorem State.present_of_tok {s : State} {i : Nat} {t : Token} (h : s.tok i = some t) : i < s.len :=
  (List.getElem?_eq_some_iff.1 h).1

theorem State.view_of_tok_byte {s : State} {i : Nat} {b : Byte} (h : s.tok i = some (.byte b)) :
    s.view i = .byte b := by
  rw [State.view, h, viewOf]

/-- R111, R190: a running core at `b1` with a byte operand. -/
theorem step_b1 {s : State} {a : Byte} (hr : s.status = .running) (hl : s.cycles + 1 ≤ s.params.cycleLimit)
    (hop : s.tok s.pc = some Opcode.b1.token) (ha : s.tok (s.pc + 1) = some (.byte a)) :
    ∃ d, step s = .next ((s.countIteration.setPc a).recordOp d) := by
  have hd := decodeTokens_fetchWindow hop
  rw [instrOfToken_token, State.view_of_tok_byte ha] at hd
  have hexec : exec (.b1 (.byte a)) s.countIteration = .next (s.countIteration.setPc a) := exec_b1_of_ok rfl
  exact ⟨_, (step_executes hr hl (State.present_of_tok ha) hd).trans (congrArg _ hexec)⟩

/-- R192: a step that leaves the core running with `PC` at or past `LEN - 1` is followed by the stop. -/
theorem steps_two_of_missing_next {s t : State} (h : step s = .next t) (hr : t.status = .running)
    (hl : t.cycles + 1 ≤ t.params.cycleLimit) (hp : t.len ≤ t.pc + 1) :
    steps 2 s = .next (t.countIteration.stop (.halted t.haltKind)) := by
  rw [steps_succ_of_step h, steps_succ_of_step (step_missing_next hr hl hp), steps_zero]

end Sys2Proof.Machine

open Sys2Proof Sys2Proof.Machine

/-- Settles O9: the register and `ACC` lie in the signed range of the width, where patterns tell values apart. -/
theorem b2ComparesBitPatterns : Obligations.B2ComparesBitPatterns := by
  intro s n r a hr hinv hw
  have hn : 0 < n := Nat.pos_of_ne_zero fun h0 => Params.wf_dataWidth hinv.params (hw.trans (congrArg _ h0))
  have hpattern : BitVec.ofInt n (s.readReg r) = BitVec.ofInt n s.acc ↔ s.readReg r = s.acc :=
    ofInt_eq_ofInt_iff_of_fits hn (hw ▸ hinv.regs r hr) (hw ▸ hinv.acc)
  simp only [hpattern]
  exact exec_b2_of_ok (useReg_byte s .one r hr) rfl

/-- Settles O11: `b1` leaves the core running with `PC` at the target, whose next token is missing. -/
theorem jumpPastEndHaltsAtTarget : Obligations.JumpPastEndHaltsAtTarget := by
  intro s a hr hl hop ha hpast
  obtain ⟨d, hstep⟩ := step_b1 hr (by omega) hop ha
  have hlen : ((s.countIteration.setPc a).recordOp d).len = s.len := State.len_congr (by simp)
  have hsteps := steps_two_of_missing_next hstep (by simpa using hr) (by simpa using Nat.lt_of_succ_le hl)
    (by simpa [hlen] using hpast)
  exact ⟨_, _, hsteps, rfl, by simp⟩

/-- Settles O7: the address is the one operand, and the one check. -/
theorem b1Jumps : Obligations.B1Jumps := fun s =>
  ⟨fun _ => exec_b1_of_ok rfl,
    fun hfault => exec_of_operandOne_error rfl (useByte_sentinel_fault s .one hfault)⟩

/-- Settles O8: the register's checks come first, then the address's, then the comparison. -/
theorem b2BranchesIfRegisterEqualsAcc : Obligations.B2BranchesIfRegisterEqualsAcc := by
  intro s
  refine ⟨fun r a hr => ?_, fun addr hfault => ?_, fun r addr hr => ?_, fun r hr => ?_, fun r hr hfault => ?_⟩
  · exact exec_b2_of_ok (useReg_byte s .one r hr) rfl
  · exact exec_of_operandOne_error rfl (useByte_sentinel_fault s .one hfault)
  · exact complete_bind_of_error (useReg_byte_out s .one r hr) _
  · exact exec_b2_of_operandTwo_error (useReg_byte s .one r hr) (useByte_absent s .two)
  · exact exec_b2_of_operandTwo_error (useReg_byte s .one r hr) (useByte_sentinel_fault s .two hfault)

/-- Settles O10: an `ACC` that never branches is no byte of the build. -/
theorem b3BranchesIfAccEqualsImmediate : Obligations.B3BranchesIfAccEqualsImmediate := by
  intro s
  refine ⟨fun v a => ?_, fun v a hv hacc => ?_, fun addr hfault => ?_, fun v => ?_, fun v hfault => ?_⟩
  · exact exec_b3_of_ok rfl rfl
  · have hv' : (v : Int) < 2 ^ s.params.tokenBits := by exact_mod_cast hv
    have hne : s.acc ≠ (v : Int) := by omega
    simpa only [hne, if_false] using exec_b3_of_ok (s := s) (useVal_byte s .one v) (useAddr_byte s .two a)
  · exact exec_of_operandOne_error rfl (useByte_sentinel_fault s .one hfault)
  · exact exec_b3_of_operandTwo_error rfl (useByte_absent s .two)
  · exact exec_b3_of_operandTwo_error rfl (useByte_sentinel_fault s .two hfault)

end

section
/-! Accumulator arithmetic (`41_accumulator_arithmetic.md`): the sum that each instruction writes once its operand check
has passed. -/

namespace Sys2Proof.Machine

section Arithmetic
variable {s : State} {reg val : OperandView} {r v : Nat}

/-- R130: of the state, `ACC` and `PC` alone change, so the register keeps its value. -/
theorem exec_c0_of_ok (hr : useReg s .one reg = .ok r) :
    exec (.c0 reg) s =
      .next { s with acc := wrap s.params.dataWidth (s.acc + s.readReg r), pc := s.pc + 2 } :=
  complete_bind_of_ok hr _

/-- R131: the operand is added as a non-negative integer. -/
theorem exec_c1_of_ok (hv : useVal s .one val = .ok v) :
    exec (.c1 val) s = .next { s with acc := wrap s.params.dataWidth (s.acc + v), pc := s.pc + 2 } :=
  complete_bind_of_ok hv _

end Arithmetic

end Sys2Proof.Machine

open Sys2Proof Sys2Proof.Machine

/-- Settles O12: the register number is in the bank, or outside it, or there is none because the operand is a sentinel. -/
theorem c0AddsRegister : Obligations.C0AddsRegister := by
  intro s
  refine ⟨fun r hin => ?_, fun r hout => ?_, fun hfault => ?_⟩
  · exact exec_c0_of_ok (useReg_byte s .one r hin)
  · exact complete_bind_of_error (useReg_byte_out s .one r hout) _
  · exact exec_of_operandOne_error rfl (useByte_sentinel_fault s .one hfault)

/-- Settles O13: a byte always passes the operand check, and a sentinel fails it. -/
theorem c1AddsImmediate : Obligations.C1AddsImmediate := by
  intro s
  refine ⟨fun v => ?_, fun hfault => ?_⟩
  · exact exec_c1_of_ok (useVal_byte s .one v)
  · exact exec_of_operandOne_error rfl (useByte_sentinel_fault s .one hfault)

end

section
/-! The index operations (`42_index_operations.md`): the write that each makes, and the words that `wrap` copies whole. -/

namespace Sys2Proof.Machine

/-! ### The write of each instruction -/

section IndexOperations
variable (s : State)

theorem exec_c2 : exec .c2 s = .next ((s.writeInc (s.inc + 1)).advance 1) := rfl

theorem exec_c3 : exec .c3 s = .next ((s.writeInc (s.inc - 1)).advance 1) := rfl

theorem exec_c4 : exec .c4 s = .next ((s.writeInc 0).advance 1) := rfl

theorem exec_c5 : exec .c5 s = .next ((s.writeAcc s.inc).advance 1) := rfl

theorem exec_c6 : exec .c6 s = .next ((s.writeInc s.acc).advance 1) := rfl

/-- The whole effect of a write to `INC` before a fall through. -/
theorem State.advance_writeInc (v : Int) (n : Nat) :
    (s.writeInc v).advance n = { s with inc := wrap s.params.dataWidth v, pc := s.pc + n } := rfl

/-- The whole effect of a write to `ACC` before a fall through. -/
theorem State.advance_writeAcc (v : Int) (n : Nat) :
    (s.writeAcc v).advance n = { s with acc := wrap s.params.dataWidth v, pc := s.pc + n } := rfl

end IndexOperations

/-! ### Words that are their own wrap (R37) -/

theorem wrap_zero {p : Params} (h : p.wf = true) : wrap p.dataWidth 0 = 0 :=
  wrap_operand h (Nat.two_pow_pos p.tokenBits)

theorem State.DataInv.wrap_acc {s : State} (h : s.DataInv) : wrap s.params.dataWidth s.acc = s.acc :=
  wrap_eq_of_fits (Params.wf_dataWidth h.params) h.acc

theorem State.DataInv.wrap_inc {s : State} (h : s.DataInv) : wrap s.params.dataWidth s.inc = s.inc :=
  wrap_eq_of_fits (Params.wf_dataWidth h.params) h.inc

end Sys2Proof.Machine

open Sys2Proof Sys2Proof.Machine

/-- Settles O15: the instruction is one write to `INC`. -/
theorem c2IncrementsIndex : Obligations.C2IncrementsIndex := by
  intro s
  rw [exec_c2, State.advance_writeInc]

/-- Settles O16: the instruction is one write to `INC`. -/
theorem c3DecrementsIndex : Obligations.C3DecrementsIndex := by
  intro s
  rw [exec_c3, State.advance_writeInc]

/-- Settles O17: 0 is a word of every width that a build admits. -/
theorem c4ClearsIndex : Obligations.C4ClearsIndex := by
  intro s hwf
  rw [exec_c4, State.advance_writeInc, wrap_zero hwf]

/-- Settles O18: under the invariant `INC` is a word of the width. -/
theorem c5CopiesIndexToAcc : Obligations.C5CopiesIndexToAcc := by
  intro s
  refine ⟨?_, fun hinv => ?_⟩
  · rw [exec_c5, State.advance_writeAcc]
  · rw [exec_c5, State.advance_writeAcc, hinv.wrap_inc]

/-- Settles O19: under the invariant `ACC` is a word of the width. -/
theorem c6CopiesAccToIndex : Obligations.C6CopiesAccToIndex := by
  intro s
  refine ⟨?_, fun hinv => ?_⟩
  · rw [exec_c6, State.advance_writeInc]
  · rw [exec_c6, State.advance_writeInc, hinv.wrap_acc]

end

section
/-! The accumulator moves (`43_accumulator_moves.md`): the one write that each makes once its operand check has passed, and
the register words that are copied whole. -/

namespace Sys2Proof.Machine

section Moves
variable {s : State} {reg val : OperandView} {r v : Nat}

theorem exec_d0_of_ok (hr : useReg s .one reg = .ok r) :
    exec (.d0 reg) s = .next ((s.writeAcc (s.readReg r)).advance 2) :=
  complete_bind_of_ok hr _

theorem exec_d1_of_ok (hv : useVal s .one val = .ok v) :
    exec (.d1 val) s = .next ((s.writeAcc v).advance 2) :=
  complete_bind_of_ok hv _

theorem exec_d2_of_ok (hr : useReg s .one reg = .ok r) :
    exec (.d2 reg) s = .next ((s.writeReg r s.acc).advance 2) :=
  complete_bind_of_ok hr _

end Moves

/-- The whole effect of a write to a register before a fall through. -/
theorem State.advance_writeReg (s : State) (r : Nat) (v : Int) (n : Nat) :
    (s.writeReg r v).advance n =
      { s with regs := s.regs.set r (wrap s.params.dataWidth v), pc := s.pc + n } := rfl

@[simp] theorem State.numRegs_advance (s : State) (n : Nat) : (s.advance n).numRegs = s.numRegs :=
  State.numRegs_congr (State.advance_regs s n)

@[simp] theorem State.readReg_advance (s : State) (n i : Nat) : (s.advance n).readReg i = s.readReg i :=
  State.readReg_congr (State.advance_regs s n) i

/-- R37: a register of the bank holds a word of the width. -/
theorem State.DataInv.wrap_readReg {s : State} (h : s.DataInv) {r : Nat} (hr : r < s.numRegs) :
    wrap s.params.dataWidth (s.readReg r) = s.readReg r :=
  wrap_eq_of_fits (Params.wf_dataWidth h.params) (h.regs r hr)

end Sys2Proof.Machine

open Sys2Proof Sys2Proof.Machine

/-- Settles O20: under the invariant a register of the bank is a word of the width. -/
theorem d0LoadsRegister : Obligations.D0LoadsRegister := by
  intro s
  refine ⟨fun r hin => ?_, fun r hin hinv => ?_, fun r hout => ?_, fun hfault => ?_⟩
  · rw [exec_d0_of_ok (useReg_byte s .one r hin), State.advance_writeAcc]
  · rw [exec_d0_of_ok (useReg_byte s .one r hin), State.advance_writeAcc, hinv.wrap_readReg hin]
  · exact complete_bind_of_error (useReg_byte_out s .one r hout) _
  · exact exec_of_operandOne_error rfl (useByte_sentinel_fault s .one hfault)

/-- Settles O21: an immediate of the build is a word of every width that the build admits. -/
theorem d1LoadsImmediate : Obligations.D1LoadsImmediate := by
  intro s
  refine ⟨fun v => ?_, fun v hwf hv => ?_, fun hfault => ?_⟩
  · rw [exec_d1_of_ok (useVal_byte s .one v), State.advance_writeAcc]
  · rw [exec_d1_of_ok (useVal_byte s .one v), State.advance_writeAcc, wrap_operand hwf hv]
  · exact exec_of_operandOne_error rfl (useByte_sentinel_fault s .one hfault)

/-- Settles O22: the instruction is one register write, which reads back as `ACC` and leaves the other registers alone. -/
theorem d2StoresAcc : Obligations.D2StoresAcc := by
  intro s
  refine ⟨fun r hin => ?_, fun r hin hinv => ?_, fun r hout => ?_, fun hfault => ?_⟩
  · rw [exec_d2_of_ok (useReg_byte s .one r hin), State.advance_writeReg]
  · refine ⟨_, exec_d2_of_ok (useReg_byte s .one r hin), ?_, ?_, fun i hne => ?_⟩
    · rw [State.numRegs_advance, State.numRegs_writeReg]
    · rw [State.readReg_advance, State.readReg_writeReg_same s hin, hinv.wrap_acc]
    · rw [State.readReg_advance, State.readReg_writeReg_ne s hne]
  · exact complete_bind_of_error (useReg_byte_out s .one r hout) _
  · exact exec_of_operandOne_error rfl (useByte_sentinel_fault s .one hfault)

end

section
/-! `halt` and the run loop (`44_halt_and_run_loop.md`): every step answers a next state, what an iteration of a running
core did, said once, and what `CYCLES` counts along a run. -/

namespace Sys2Proof.Machine

/-! ### Every step answers (R195) -/

/-- `halt` on an image of no tokens is the one instruction that answers no next state. -/
theorem exec_eq_next_of_len_ne_zero {s : State} (hlen : s.len ≠ 0) (i : Instr) : ∃ t, exec i s = .next t := by
  obtain ⟨f, hf⟩ | ⟨t, ht, -⟩ | ⟨-, hzero, -⟩ := exec_cases i s
  · exact ⟨_, hf⟩
  · exact ⟨t, ht⟩
  · exact absurd hzero hlen

/-- The guards of log 6 are behind the check for `tok(PC+1)`. -/
theorem step_eq_next (s : State) : ∃ t, step s = .next t := by
  obtain ⟨-, hs⟩ | ⟨-, -, hs⟩ | ⟨-, -, -, hs⟩ | ⟨-, -, hp, tok, -, hs⟩ := step_cases s
  · exact ⟨_, hs⟩
  · exact ⟨_, hs⟩
  · exact ⟨_, hs⟩
  · have hlen : s.countIteration.len ≠ 0 := (Nat.zero_lt_of_lt hp).ne'
    obtain ⟨t, ht⟩ := exec_eq_next_of_len_ne_zero hlen _
    exact ⟨_, hs.trans (congrArg _ ht)⟩

theorem steps_eq_next (k : Nat) (s : State) : ∃ t, steps k s = .next t := by
  induction k generalizing s with
  | zero => exact ⟨s, rfl⟩
  | succ k ih =>
    obtain ⟨u, hu⟩ := step_eq_next s
    rw [steps_succ_of_step hu]
    exact ih u

/-! ### A stopped core (R197) -/

section Stopped
variable {s : State} (hs : s.status ≠ .running) (k : Nat)
include hs

theorem steps_of_stopped : steps k s = .next s := by
  induction k with
  | zero => rfl
  | succ k ih => rw [steps_succ_of_step (step_stopped hs), ih]

theorem executedIn_of_stopped : executedIn k s = 0 := by
  induction k with
  | zero => rfl
  | succ k ih => rw [executedIn_succ_of_step (step_stopped hs), if_neg hs, ih]

end Stopped

/-! ### What an iteration of a running core did (R190) -/

theorem Completes.exists_opcode {s t : State} {i : Instr} (h : Completes s i t) : ∃ op, i.opcode? = some op := by
  cases h <;> exact ⟨_, rfl⟩

theorem State.recordOp_of_running {s : State} (h : s.status = .running) (d : Decoded) :
    s.recordOp d = { s with curop := recordedOp d } :=
  if_pos h

/-- What the decoder answers at a token `t` that stands at `PC` (R90). -/
def State.decodedAs (s : State) (t : Token) : Decoded :=
  ⟨instrOfToken t (s.view (s.pc + 1)) (s.view (s.pc + 2)), s.view (s.pc + 1), s.view (s.pc + 2)⟩

theorem State.decodeTokens_eq_decodedAs {s : State} {t : Token} (h : s.tok s.pc = some t) :
    decodeTokens s.fetchWindow = .ok (s.decodedAs t) :=
  decodeTokens_fetchWindow h

theorem State.recordedOp_decodedAs {s : State} {t : Token} {op : Opcode} (h : Opcode.ofToken? t = some op) :
    recordedOp (s.decodedAs t) = some ⟨op, s.view (s.pc + 1), s.view (s.pc + 2)⟩ := by
  simp [recordedOp, State.decodedAs, h]

/-- The iteration of a running core counted; then the limit stopped it, or something else did (the missing next token
or an error), or the instruction at `PC` completed under the limit and was recorded. -/
theorem step_cases_of_running {s t : State} (hr : s.status = .running) (h : step s = .next t) :
    (s.params.cycleLimit < s.cycles + 1 ∧ t = s.countIteration.stop .cycleLimitExceeded) ∨
    (∃ st, st ≠ .running ∧ st ≠ .cycleLimitExceeded ∧ t = s.countIteration.stop st) ∨
    (s.cycles + 1 ≤ s.params.cycleLimit ∧ ∃ tok u, s.tok s.pc = some tok ∧
      exec (s.decodedAs tok).instr s.countIteration = .next u ∧
      Completes s.countIteration (s.decodedAs tok).instr u ∧ t = u.recordOp (s.decodedAs tok)) := by
  obtain ⟨hn, -⟩ | ⟨-, hl, hs⟩ | ⟨-, -, -, hs⟩ | ⟨-, hl, -, tok, htok, hs⟩ := step_cases s
  · exact absurd hr hn
  all_goals rw [hs] at h
  · cases h; exact .inl ⟨hl, rfl⟩
  · cases h; exact .inr (.inl ⟨.halted s.haltKind, nofun, nofun, rfl⟩)
  · obtain ⟨u, hu, rfl⟩ := mapNext_eq_next h
    obtain hc | ⟨f, -, rfl⟩ := exec_eq_next_cases hu
    · exact .inr (.inr ⟨hl, tok, u, htok, hu, hc, rfl⟩)
    · rw [State.recordOp_of_not_running (by simp)]
      exact .inr (.inl ⟨.faulted f, nofun, nofun, rfl⟩)

/-! ### `CYCLES` along a run (R191, R193, R199) -/

theorem step_cycles_of_running {s t : State} (hr : s.status = .running) (h : step s = .next t) :
    t.cycles = s.cycles + 1 := by
  obtain ⟨-, rfl⟩ | ⟨st, -, -, rfl⟩ | ⟨-, tok, u, -, -, hc, rfl⟩ := step_cases_of_running hr h
  · rfl
  · rfl
  · rw [State.recordOp_cycles, hc.sameRun.cycles, State.countIteration_cycles]

/-- What the check of R193 makes of `CYCLES`, whatever the image and the data state are. -/
structure State.CyclesBounded (s : State) : Prop where
  running : s.status = .running → s.cycles ≤ s.params.cycleLimit
  exceeded : s.status = .cycleLimitExceeded → s.cycles = s.params.cycleLimit + 1

theorem State.CyclesBounded.of_step {s t : State} (hb : s.CyclesBounded) (h : step s = .next t) :
    t.CyclesBounded := by
  by_cases hr : s.status = .running
  · have hle := hb.running hr
    obtain ⟨hl, rfl⟩ | ⟨st, hrun, hlim, rfl⟩ | ⟨hl, tok, u, -, -, hc, rfl⟩ := step_cases_of_running hr h
    · exact ⟨nofun, fun _ => show s.cycles + 1 = s.params.cycleLimit + 1 by omega⟩
    · exact ⟨fun h' => absurd h' hrun, fun h' => absurd h' hlim⟩
    · have hrun := hc.sameRun
      refine ⟨fun _ => ?_, fun h' => ?_⟩
      · simpa [hrun.cycles, hrun.params] using hl
      · simp [hrun.status, hr] at h'
  · rw [step_stopped hr] at h
    cases h; exact hb

/-- The bound at the end of a run of a core that starts with `CYCLES` 0. -/
theorem cyclesBounded_of_steps {k : Nat} {s t : State} (hr : s.status = .running) (h0 : s.cycles = 0)
    (h : steps k s = .next t) : t.CyclesBounded := by
  have hstart : s.CyclesBounded := ⟨fun _ => h0 ▸ Nat.zero_le _, fun h' => by rw [hr] at h'; cases h'⟩
  exact steps_induction (fun _ _ hb => hb.of_step) k s t hstart h

theorem steps_params {k : Nat} {s t : State} (h : steps k s = .next t) : t.params = s.params :=
  (imageIsImmutable k s t h).2

/-- A core that still runs has counted every step. -/
theorem steps_cycles_of_running {k : Nat} {s t : State} (h : steps k s = .next t) (ht : t.status = .running) :
    t.cycles = s.cycles + k := by
  induction k generalizing s with
  | zero => cases h; rfl
  | succ k ih =>
    have hr : s.status = .running := by
      by_contra hr
      rw [steps_of_stopped hr] at h
      cases h; exact hr ht
    obtain ⟨u, hu, hsteps⟩ := steps_succ_cases h
    rw [ih hsteps, step_cycles_of_running hr hu]
    omega

/-- The iteration that stops a core counts and executes nothing; every other does both. -/
theorem steps_cycles_eq_executedIn {k : Nat} {s t : State} (hr : s.status = .running) (h : steps k s = .next t) :
    t.cycles = s.cycles + executedIn k s + if t.status = .running then 0 else 1 := by
  induction k generalizing s with
  | zero => cases h; rw [if_pos hr]; rfl
  | succ k ih =>
    obtain ⟨u, hu, hsteps⟩ := steps_succ_cases h
    have hcount := step_cycles_of_running hr hu
    rw [executedIn_succ_of_step hu]
    by_cases hur : u.status = .running
    · rw [if_pos hur, ih hur hsteps]
      omega
    · rw [steps_of_stopped hur] at hsteps
      cases hsteps
      rw [if_neg hur, if_neg hur, executedIn_of_stopped hur, hcount]

/-! ### The halt kind (R196) and the iteration of `halt` (R180) -/

theorem State.haltKind_eq (s : State) :
    s.haltKind =
      if s.pc + 1 = s.len ∧ s.tok (s.len - 1) = some .halt then .atSentinel else .implicitEnd := by
  refine if_congr (and_congr_right fun hpc => ?_) rfl rfl
  rw [← hpc, Nat.add_sub_cancel]

theorem exec_halt_of_len_pos {s : State} (h : 0 < s.len) : exec .halt s = .next (s.setPc (s.len - 1)) :=
  exec_halt_of_len_succ (Nat.sub_one_add_one h.ne').symm

theorem step_halt {s : State} (hr : s.status = .running) (hl : s.cycles + 1 ≤ s.params.cycleLimit)
    (hp : s.pc + 1 < s.len) (ht : s.tok s.pc = some .halt) :
    ∃ d, step s = .next ((s.countIteration.setPc (s.len - 1)).recordOp d) := by
  have hexec : exec .halt s.countIteration = .next (s.countIteration.setPc (s.len - 1)) :=
    exec_halt_of_len_pos (Nat.zero_lt_of_lt hp)
  exact ⟨_, (step_executes hr hl hp (decodeTokens_fetchWindow ht)).trans (congrArg _ hexec)⟩

end Sys2Proof.Machine

open Sys2Proof Sys2Proof.Machine

/-- Settles O23. -/
theorem haltJumpsToLastToken : Obligations.HaltJumpsToLastToken :=
  fun _ hlen => exec_halt_of_len_pos hlen

/-- Settles O24. -/
theorem haltOnEmptyImageStops : Obligations.HaltOnEmptyImageStops :=
  fun _ hlen => exec_halt_of_len_zero hlen

/-- Settles O25: `halt` leaves the core running at the last token, whose next token is missing. -/
theorem haltStopsAtTheNextIteration : Obligations.HaltStopsAtTheNextIteration := by
  intro s hr hl hp htok
  obtain ⟨d, hstep⟩ := step_halt hr (by omega) hp htok
  generalize hu : (s.countIteration.setPc (s.len - 1)).recordOp d = u at hstep
  have himage : u.image = s.image := by simp [← hu]
  have hlen : u.len = s.len := State.len_congr himage
  have hpc : u.pc = s.len - 1 := by simp [← hu]
  have hlast : u.pc + 1 = u.len := by omega
  have hsteps := steps_two_of_missing_next hstep (by simpa [← hu] using hr)
    (by simpa [← hu] using Nat.lt_of_succ_le hl) hlast.ge
  refine ⟨_, hsteps, ?_, hpc, ?_, ?_, ?_, ?_⟩
  · simp [State.haltKind_eq, hlast, hlen, State.tok_congr himage]
  all_goals simp [← hu]

/-- Settles O34: what `CUROP` records turns on whether the instruction left the core running. -/
theorem stepRunsTheDecodedInstruction : Obligations.StepRunsTheDecodedInstruction := by
  intro s t d hr hl hp hd _ hexec
  have hstep : step s = .next (t.recordOp d) := (step_executes hr hl hp hd).trans (congrArg _ hexec)
  refine ⟨fun ht op hop => ?_, fun ht => ?_⟩
  · rw [hstep, State.recordOp_of_running ht, recordedOp, hop, Option.map_some]
  · rw [hstep, State.recordOp_of_not_running ht]

/-- Settles O35, by induction on the number of steps. -/
theorem stoppedCoreNeverMoves : Obligations.StoppedCoreNeverMoves :=
  fun _ k hs => steps_of_stopped hs k

/-- Settles O36. -/
theorem cycleLimitStopsFirst : Obligations.CycleLimitStopsFirst :=
  fun _ hr hl => step_limit hr hl

/-- Settles O37: the kind is asked of the token at `PC`, which at `LEN - 1` is the last. -/
theorem missingNextTokenHalts : Obligations.MissingNextTokenHalts := by
  intro s hr hl hp
  rw [step_missing_next hr hl hp, State.haltKind_eq]
  rfl

/-- Settles O38: a step that reaches the decoder has a token to decode. -/
theorem everyStepAnswersNext : Obligations.EveryStepAnswersNext :=
  step_eq_next

/-- Settles O39. -/
theorem everyIterationCounts : Obligations.EveryIterationCounts := by
  intro s t h
  by_cases hr : s.status = .running
  · rw [if_pos hr, step_cycles_of_running hr h]
  · rw [step_stopped hr] at h
    cases h; rw [if_neg hr]

/-- Settles O41: an instruction that completes is recorded and has an opcode; any other iteration stops the core. -/
theorem curopRecordsExecutedInstruction : Obligations.CuropRecordsExecutedInstruction := by
  intro s t hr h
  obtain ⟨-, rfl⟩ | ⟨st, hst, -, rfl⟩ | ⟨-, tok, u, htok, -, hc, rfl⟩ := step_cases_of_running hr h
  · exact ⟨nofun, fun _ => rfl⟩
  · exact ⟨fun h' => absurd h' hst, fun _ => rfl⟩
  · have hrun : u.status = .running := hc.sameRun.status.trans hr
    obtain ⟨op, hop⟩ := hc.exists_opcode
    rw [State.decodedAs, instrOfToken_opcode?] at hop
    refine ⟨fun _ => ⟨tok, op, htok, hop, ?_⟩, fun h' => absurd ((State.recordOp_status _ u).trans hrun) h'⟩
    rw [State.recordOp_curop, if_pos hrun, State.recordedOp_decodedAs hop]

/-- Settles O48: a core that still runs has counted every step, and has not counted past the limit. -/
theorem everyRunEndsWithinTheLimit : Obligations.EveryRunEndsWithinTheLimit := by
  refine ⟨fun s hr h0 => ?_, fun s t h ht => ?_⟩
  · obtain ⟨t, h⟩ := steps_eq_next (s.params.cycleLimit + 1) s
    refine ⟨t, h, fun ht => ?_⟩
    have hcount := steps_cycles_of_running h ht
    have hbound := (cyclesBounded_of_steps hr h0 h).running ht
    rw [steps_params h] at hbound
    omega
  · have hr : s.status = .running := by
      by_contra hr
      rw [step_stopped hr] at h
      cases h; exact hr ht
    obtain ⟨-, rfl⟩ | ⟨st, hst, -, rfl⟩ | ⟨-, tok, u, htok, hexec, -, rfl⟩ := step_cases_of_running hr h
    · cases ht
    · exact absurd ht hst
    · exact ⟨_, u, State.decodeTokens_eq_decodedAs htok, hexec, rfl⟩

/-- Settles O49: the iteration that stops a core is the one that counts and executes nothing. -/
theorem cyclesCountExecutedInstructions : Obligations.CyclesCountExecutedInstructions := by
  intro k s t hr h0 h
  have hcount := steps_cycles_eq_executedIn hr h
  rw [h0, Nat.zero_add] at hcount
  refine ⟨fun ht => ?_, fun _ ht => ?_, fun _ ht => ?_, fun ht => ?_⟩
  · simpa [ht] using hcount
  · simpa [ht] using hcount
  · simpa [ht] using hcount
  · have hlimit := (cyclesBounded_of_steps hr h0 h).exceeded ht
    rw [steps_params h] at hlimit
    have hstop : t.cycles = executedIn k s + 1 := by simpa [ht] using hcount
    exact ⟨hlimit, by omega⟩

end

section
/-! Errors and the frame of an instruction (`60_exceptions.md` R211, R214; `10_state.md` R42; `20_memory.md` R71): an error
records `PC` and changes `STATUS` alone, and an instruction that completes keeps the size of the bank. -/

namespace Sys2Proof.Machine

/-- The errors of the checks that every operand kind shares (R213) record `PC`. -/
theorem useByte_error_pc {s : State} {n : OperandNo} {o : OperandView} {f : StepError}
    (h : useByte s n o = .error f) : f.pc = s.pc := by
  obtain ⟨b, -, hb⟩ | ⟨-, -, hb⟩ | ⟨-, -, hb⟩ | ⟨-, hb⟩ := useByte_cases s n o
  all_goals cases hb.symm.trans h <;> rfl

theorem Raises.pc_eq {s : State} {i : Instr} {f : StepError} (h : Raises s i f) : f.pc = s.pc := by
  cases h with
  | illegalByte | register => rfl
  | operandOne _ hf | operandTwo _ hf => exact useByte_error_pc hf

/-- R34: no instruction creates or drops a register. -/
theorem Completes.numRegs_eq {s t : State} {i : Instr} (h : Completes s i t) : t.numRegs = s.numRegs := by
  cases h with
  | d2 => exact State.numRegs_writeReg s _ _
  | _ => exact State.numRegs_congr (by simp)

end Sys2Proof.Machine

open Sys2Proof Sys2Proof.Machine

/-- Settles O26: the instruction raises, and does nothing else. -/
theorem illegalByteRaises : Obligations.IllegalByteRaises := fun _ _ => rfl

/-- Settles O30: an instruction completes within its frame, or raises. -/
theorem instructionFrame : Obligations.InstructionFrame := by
  intro i s t h
  obtain hc | ⟨f, hf, rfl⟩ := exec_eq_next_cases h
  · obtain ⟨hcycles, hcurop, hstatus, himage, hparams⟩ := hc.sameRun
    exact ⟨hcycles, hcurop, hparams, State.len_congr himage, State.tok_congr himage, hc.numRegs_eq, .inl hstatus⟩
  · exact ⟨rfl, rfl, rfl, rfl, fun _ => rfl, rfl, .inr ⟨f, hf.pc_eq, rfl⟩⟩

/-- Settles O40: of all that a step of a running core can do, only an instruction that raises ends in an error. -/
theorem faultIsPrecise : Obligations.FaultIsPrecise := by
  intro s t f hr h ht
  obtain ⟨hn, -⟩ | ⟨-, -, hs⟩ | ⟨-, -, -, hs⟩ | ⟨-, -, -, tok, -, hs⟩ := step_cases s
  · exact absurd hr hn
  all_goals rw [hs] at h
  · cases h; cases ht
  · cases h; cases ht
  · obtain ⟨u, hu, rfl⟩ := mapNext_eq_next h
    rw [State.recordOp_status] at ht
    obtain hc | ⟨g, hg, rfl⟩ := exec_eq_next_cases hu
    · have hrun : u.status = .running := hc.sameRun.status.trans hr
      rw [hrun] at ht; cases ht
    · cases ht
      rw [State.recordOp_of_not_running (by simp)]
      exact ⟨rfl, hg.pc_eq⟩

end

section
/-! The trace (`60_exceptions.md` R230): the traced run makes the steps of the plain run and adds one report after each
iteration of a running core, and construction does not read the option that turns it on (`70_reset_and_hazards.md` R250). -/

namespace Sys2Proof.Machine

theorem traced_succ_of_step {s t : State} (h : step s = .next t) (verbose : Bool) (k : Nat) :
    traced verbose (k + 1) s =
      ((traced verbose k t).1,
        if verbose && decide (s.status = .running) then reportLines t :: (traced verbose k t).2
        else (traced verbose k t).2) := by
  simp only [traced, h]

theorem traced_fst (verbose : Bool) (k : Nat) (s : State) : (traced verbose k s).1 = steps k s := by
  induction k generalizing s with
  | zero => rfl
  | succ k ih =>
    obtain ⟨t, ht⟩ := step_eq_next s
    rw [traced_succ_of_step ht, steps_succ_of_step ht]
    exact ih t

theorem traced_false_snd (k : Nat) (s : State) : (traced false k s).2 = [] := by
  induction k generalizing s with
  | zero => rfl
  | succ k ih =>
    obtain ⟨t, ht⟩ := step_eq_next s
    rw [traced_succ_of_step ht]
    exact ih t

/-- `hostRun` reads `verbose` for the trace, and for nothing else. -/
theorem hostRun_set_verbose (k : Nat) (p : Params) (m : Image) (o : Options) (verbose : Bool) :
    hostRun k p m { o with verbose := verbose } = (construct p m o).map (traced verbose k) := by
  have hconstruct : construct p m { o with verbose := verbose } = construct p m o := rfl
  rw [hostRun, hconstruct]
  cases construct p m o <;> rfl

/-- The outcome of a run is that of its steps, with the option on and off. -/
theorem hostRun_set_verbose_fst (k : Nat) (p : Params) (m : Image) (o : Options) (verbose : Bool) :
    (hostRun k p m { o with verbose := verbose }).map Prod.fst = (construct p m o).map (steps k) := by
  rw [hostRun_set_verbose]
  cases construct p m o with
  | error e => rfl
  | ok s => exact congrArg Except.ok (traced_fst verbose k s)

end Sys2Proof.Machine

open Sys2Proof Sys2Proof.Machine

/-- Settles O52: both settings run the steps, and only the traced run collects reports. -/
theorem traceHasNoEffect : Obligations.TraceHasNoEffect := by
  refine ⟨fun k p m o => ⟨hostRun_set_verbose_fst k p m o true, hostRun_set_verbose_fst k p m o false, ?_, ?_⟩, ?_⟩
  · intro r reports h
    rw [hostRun_set_verbose] at h
    cases hs : construct p m o with
    | error e => rw [hs] at h; cases h
    | ok s =>
      rw [hs] at h
      have htraced : traced false k s = (r, reports) := Except.ok.inj h
      rw [← traced_false_snd k s, htraced]
  · intro s hs
    rw [hostRun_set_verbose, hs, ← traced_fst true k s]
    rfl
  · intro k s t h
    simp [traced_succ_of_step h]

end

section
/-! The loader on the raw token join (`60_exceptions.md` R238, `70_reset_and_hazards.md` R261-R263): the join is one line, it
splits into the tokens' texts, and each text reads back as its token. -/

namespace Sys2Proof.Machine

/-! ### Words joined by single spaces (R263) -/

/-- A run of characters that white space separates from others. -/
def IsWord (w : Text) : Prop := w ≠ [] ∧ ∀ c ∈ w, isSpace c = false

theorem wordsOf_word_append {w : Text} (hw : IsWord w) (t : Text) : wordsOf (w ++ ' ' :: t) = w :: wordsOf t := by
  rw [wordsOf, List.splitOnP_append_cons_of_forall_mem hw.2 ' ' (by decide)]
  exact List.filter_cons_of_pos (by simpa using hw.1)

theorem wordsOf_intercalate {ws : List Text} (h : ∀ w ∈ ws, IsWord w) : wordsOf ([' '].intercalate ws) = ws := by
  induction ws with
  | nil => rfl
  | cons w rest ih =>
    obtain ⟨hw, hrest⟩ := List.forall_mem_cons.1 h
    cases rest with
    | nil =>
      rw [List.intercalate_singleton, wordsOf, List.splitOnP_eq_singleton hw.2]
      exact List.filter_cons_of_pos (by simpa using hw.1)
    | cons v rest =>
      rw [List.intercalate_cons_cons, List.append_assoc, List.singleton_append, wordsOf_word_append hw, ih hrest]

/-- Joining words by single spaces gives one line. -/
theorem newline_not_mem_intercalate {ws : List Text} (h : ∀ w ∈ ws, IsWord w) : '\n' ∉ [' '].intercalate ws := by
  have hword : ∀ w, IsWord w → '\n' ∉ w := fun w hw hmem => absurd (hw.2 _ hmem) (by decide)
  induction ws with
  | nil => exact List.not_mem_nil
  | cons w rest ih =>
    obtain ⟨hw, hrest⟩ := List.forall_mem_cons.1 h
    cases rest with
    | nil => rw [List.intercalate_singleton]; exact hword w hw
    | cons v rest =>
      rw [List.intercalate_cons_cons]
      simp only [List.mem_append, not_or]
      exact ⟨⟨hword w hw, by decide⟩, ih hrest⟩

/-! ### The text of a token (R238, R261) -/

theorem byteText_isWord {b : Nat} (hb : b < 256) : IsWord (byteText b) := by
  have hdigit : ∀ x < 16, isSpace (upperHexDigit x) = false := by decide
  rw [byteText_eq hb]
  exact ⟨nofun, by simpa using ⟨hdigit (b / 16) (by omega), hdigit (b % 16) (by omega)⟩⟩

theorem tokenOf_byteText {b : Nat} (hb : b < 256) : tokenOf (byteText b) = .ok (.byte b) := by
  have hhi : hexDigit? (upperHexDigit (b / 16)) = some (b / 16) := hexDigit?_upperHexDigit (by omega)
  have hlo : hexDigit? (upperHexDigit (b % 16)) = some (b % 16) := hexDigit?_upperHexDigit (by omega)
  rw [byteText_eq hb, tokenOf_pair hhi hlo, Nat.div_add_mod]

section TokenText
variable {t : Token} (h : t.fits Params.reference.tokenBits = true)
include h

theorem tokenText_isWord : IsWord (tokenText t) := by
  cases t with
  | halt => exact ⟨nofun, by simp [tokenText, isSpace, Char.isWhitespace]⟩
  | byte b => exact byteText_isWord (of_decide_eq_true h)

theorem tokenOf_tokenText : tokenOf (tokenText t) = .ok t := by
  cases t with
  | halt => exact tokenOf_eq_halt_iff.2 (by decide)
  | byte b => exact tokenOf_byteText (of_decide_eq_true h)

end TokenText

theorem tokensOf_map_tokenText {m : Image} (h : Memory.tokensFit Params.reference m = true) :
    tokensOf (m.map tokenText) = .ok m := by
  induction m with
  | nil => rfl
  | cons t rest ih =>
    obtain ⟨ht, hrest⟩ := Bool.and_eq_true_iff.1 h
    exact host_bind_eq_ok_iff.2 ⟨t, tokenOf_tokenText ht, host_bind_eq_ok_iff.2 ⟨rest, ih hrest, rfl⟩⟩

/-- R262: the rewrite touches no image whose last token is not `00`. -/
theorem rewriteFinal_of_getLast?_ne {m : Image} (h : m.getLast? ≠ some (.byte 0)) : rewriteFinal m = m := by
  induction m using rewriteFinal.induct with
  | case1 => rfl
  | case2 => exact absurd rfl h
  | case3 t ht => exact if_neg ht
  | case4 t u rest ih => exact congrArg (t :: ·) (ih (by simpa using h))

/-- R260, R263: text without a newline is in the compact form. -/
theorem load_of_words {t : Text} {ks : List Token} (hline : '\n' ∉ t) (h : tokensOf (wordsOf t) = .ok ks) :
    load t = .ok ⟨rewriteFinal ks, []⟩ := by
  rw [load, if_neg hline]
  exact host_bind_eq_ok_iff.2 ⟨_, host_bind_eq_ok_iff.2 ⟨ks, h, rfl⟩, rfl⟩

end Sys2Proof.Machine

open Sys2Proof Sys2Proof.Machine

/-- Settles O58: the join splits into the texts it was made of, and each is its token's. -/
theorem loadingTheRawJoinGivesTheImage : Obligations.LoadingTheRawJoinGivesTheImage := by
  intro m hfit hlast
  have hwords : ∀ w ∈ m.map tokenText, IsWord w :=
    List.forall_mem_map.2 fun t ht => tokenText_isWord (List.all_eq_true.1 hfit t ht)
  have htokens : tokensOf (wordsOf ([' '].intercalate (m.map tokenText))) = .ok m := by
    rw [wordsOf_intercalate hwords, tokensOf_map_tokenText hfit]
  rw [toS, load_of_words (newline_not_mem_intercalate hwords) htokens, rewriteFinal_of_getLast?_ne hlast]

end

section
/-! The listing (`60_exceptions.md` R235, R236): the walk from an index on lists the image from there, group by group. -/

namespace Sys2Proof.Machine

/-! ### The group length (R235, D27 (a)) -/

theorem groupLength_of_opcode {t : Token} {op : Opcode} (h : Opcode.ofToken? t = some op) :
    groupLength t = op.length := by
  simp [groupLength, h]

theorem groupLength_of_no_opcode {t : Token} (h : Opcode.ofToken? t = none) : groupLength t = 1 := by
  simp [groupLength, h]

theorem groupLength_pos (t : Token) : 0 < groupLength t := by
  cases h : Opcode.ofToken? t with
  | none => rw [groupLength_of_no_opcode h]; decide
  | some op => rw [groupLength_of_opcode h]; cases op <;> decide

/-! ### The walk from an index of an image -/

section Walk
variable {m : Image} {i : Nat}

theorem listingFrom_drop_of_none (k : Nat) (h : m[i]? = none) : listingFrom k i (m.drop i) = [] := by
  rw [List.drop_eq_nil_of_le (List.getElem?_eq_none_iff.1 h)]
  cases k <;> rfl

theorem listingFrom_drop_of_some (k : Nat) {t : Token} (h : m[i]? = some t) :
    listingFrom (k + 1) i (m.drop i) =
      ⟨i, (m.drop i).take (groupLength t)⟩ :: listingFrom k (i + groupLength t) (m.drop (i + groupLength t)) := by
  obtain ⟨hi, rfl⟩ := List.getElem?_eq_some_iff.1 h
  rw [← List.drop_drop, List.drop_eq_getElem_cons hi]
  rfl

theorem listingFrom_drop_cases (m : Image) (i k : Nat) :
    listingFrom k i (m.drop i) = [] ∨ ∃ t k', m[i]? = some t ∧ k = k' + 1 := by
  cases k with
  | zero => exact .inl rfl
  | succ k =>
    cases h : m[i]? with
    | none => exact .inl (listingFrom_drop_of_none _ h)
    | some t => exact .inr ⟨t, k, rfl, rfl⟩

/-- The groups of the walk, joined, are the tokens it walks over. -/
theorem flatMap_tokens_listingFrom {k : Nat} (hk : m.length ≤ i + k) :
    (listingFrom k i (m.drop i)).flatMap ListingEntry.tokens = m.drop i := by
  induction k generalizing i with
  | zero => exact (List.drop_eq_nil_of_le hk).symm
  | succ k ih =>
    cases h : m[i]? with
    | none =>
      rw [listingFrom_drop_of_none _ h]
      exact (List.drop_eq_nil_of_le (List.getElem?_eq_none_iff.1 h)).symm
    | some t =>
      have hpos := groupLength_pos t
      rw [listingFrom_drop_of_some k h, List.flatMap_cons, ih (by omega), ← List.drop_drop, List.take_append_drop]

/-- The key of an entry counts the tokens before it, and its group starts at its key (R236). -/
theorem listingFrom_getElem? {k n : Nat} {e : ListingEntry} (h : (listingFrom k i (m.drop i))[n]? = some e) :
    e.index = i + (((listingFrom k i (m.drop i)).take n).flatMap ListingEntry.tokens).length ∧
      ∃ t, m[e.index]? = some t ∧ e.tokens = (m.drop e.index).take (groupLength t) := by
  induction n generalizing k i with
  | zero =>
    obtain hnil | ⟨t, k, ht, rfl⟩ := listingFrom_drop_cases m i k
    · rw [hnil] at h; cases h
    · rw [listingFrom_drop_of_some k ht] at h
      cases h
      exact ⟨rfl, t, ht, rfl⟩
  | succ n ih =>
    obtain hnil | ⟨t, k, ht, rfl⟩ := listingFrom_drop_cases m i k
    · rw [hnil] at h; cases h
    · rw [listingFrom_drop_of_some k ht] at h ⊢
      obtain ⟨hindex, t', ht', htokens⟩ := ih h
      obtain ⟨hlt, -⟩ := List.getElem?_eq_some_iff.1 ht'
      refine ⟨?_, t', ht', htokens⟩
      rw [List.take_succ_cons, List.flatMap_cons, List.length_append, List.length_take, List.length_drop]
      omega

end Walk

end Sys2Proof.Machine

open Sys2Proof Sys2Proof.Machine

/-- Settles O60: the listing is the walk from index 0, with fuel for every token of the image. -/
theorem listingCutsTheImage : Obligations.ListingCutsTheImage := by
  refine ⟨fun t op h => ?_, fun _ => groupLength_of_no_opcode, fun m => ⟨?_, fun k e h => ?_⟩⟩
  · rw [groupLength_of_opcode h]
    cases op <;> rfl
  · exact flatMap_tokens_listingFrom (i := 0) (Nat.zero_add m.length).ge
  · obtain ⟨hindex, hgroup⟩ := listingFrom_getElem? (i := 0) h
    exact ⟨hindex.trans (Nat.zero_add _), hgroup⟩

end

section
/-! The cycle budget of a run (`44_halt_and_run_loop.md` R193, R198, `70_reset_and_hazards.md` R285): only the check of R193
lets `CYCLES` pass the limit, and it stops the core with its own status. -/

namespace Sys2Proof.Machine

/-- `CYCLES` has passed the limit in no state but one that the limit stopped. -/
def State.WithinLimit (s : State) : Prop := s.status ≠ .cycleLimitExceeded → s.cycles ≤ s.params.cycleLimit

theorem State.WithinLimit.of_step {s t : State} (hb : s.WithinLimit) (h : step s = .next t) : t.WithinLimit := by
  intro ht
  by_cases hr : s.status = .running
  · by_cases hl : s.params.cycleLimit < s.cycles + 1
    · rw [step_limit hr hl] at h
      cases h; exact absurd rfl ht
    · rw [step_cycles_of_running hr h, (step_image_params h).2]
      exact Nat.le_of_not_lt hl
  · rw [step_stopped hr] at h
    cases h; exact hb ht

theorem withinLimit_of_steps {k : Nat} {s t : State} (h0 : s.cycles = 0) (h : steps k s = .next t) : t.WithinLimit :=
  steps_induction (fun _ _ hb => hb.of_step) k s t (fun _ => h0 ▸ Nat.zero_le _) h

end Sys2Proof.Machine

open Sys2Proof Sys2Proof.Machine

/-- Settles O50: a run counts every instruction it executes, and one more iteration where it stopped; only a run that the
limit stopped has counted past the limit. -/
theorem cycleBudget : Obligations.CycleBudget := by
  intro k s t hr h0 h
  have hcount := steps_cycles_eq_executedIn hr h
  have hlimit : t.status ≠ .cycleLimitExceeded → t.cycles ≤ s.params.cycleLimit := by
    simpa [State.WithinLimit, steps_params h] using withinLimit_of_steps h0 h
  refine ⟨?_, fun kind ht => ?_, fun hall hstop => ?_⟩
  · by_cases ht : t.status = .cycleLimitExceeded
    · obtain ⟨-, -, -, hexceeded⟩ := cyclesCountExecutedInstructions k s t hr h0 h
      exact (hexceeded ht).2.le
    · have hle := hlimit ht
      omega
  · have hle := hlimit (by simp [ht])
    simp only [ht, reduceCtorEq, if_false] at hcount
    omega
  · by_contra ht
    have hle := hlimit ht
    rw [if_neg hstop] at hcount
    omega

end

section
/-! Construction and boot (`70_reset_and_hazards.md` R250-R253, R261, R262, R270): which overrides are accepted, what words
the registers then hold, and the tokens of the images the loader makes. -/

namespace Sys2Proof

/-- A build whose tokens are wider has every token of the narrower one. -/
theorem Token.fits_mono {a b : Nat} (hab : a ≤ b) {t : Token} (h : t.fits a = true) : t.fits b = true := by
  cases t with
  | halt => rfl
  | byte n => exact decide_eq_true ((of_decide_eq_true h).trans_le (Nat.pow_le_pow_right (by decide) hab))

end Sys2Proof

namespace Sys2Proof.Machine

/-! ### The register overrides (R251, R252) -/

/-- An override is accepted or refused for its position and its value, whatever the registers hold. -/
theorem exists_applyOverrides_eq_ok_iff {p : Params} {l : List (Nat × Int)} {regs : List Int} :
    (∃ regs', applyOverrides p regs l = .ok regs') ↔
      ∀ x ∈ l, x.1 < p.numRegs ∧ fitsWidth p.dataWidth x.2 = true := by
  induction l generalizing regs with
  | nil => exact ⟨fun _ => nofun, fun _ => ⟨regs, rfl⟩⟩
  | cons x rest ih =>
    rw [List.forall_mem_cons]
    constructor
    · rintro ⟨regs', h⟩
      obtain ⟨mid, hx, hrest⟩ := host_bind_eq_ok_iff.1 h
      obtain ⟨hk, hv, -⟩ := applyOverride_eq_ok_iff.1 hx
      exact ⟨⟨hk, hv⟩, ih.1 ⟨regs', hrest⟩⟩
    · rintro ⟨⟨hk, hv⟩, hall⟩
      obtain ⟨regs', hrest⟩ := ih.2 hall
      exact ⟨regs', host_bind_eq_ok_iff.2 ⟨_, applyOverride_eq_ok_iff.2 ⟨hk, hv, rfl⟩, hrest⟩⟩

theorem applyOverrides_fitsWidth {p : Params} (hp : p.wf = true) {l : List (Nat × Int)} {regs regs' : List Int}
    (hregs : ∀ v ∈ regs, fitsWidth p.dataWidth v = true) (h : applyOverrides p regs l = .ok regs') :
    ∀ v ∈ regs', fitsWidth p.dataWidth v = true := by
  induction l generalizing regs with
  | nil => cases h; exact hregs
  | cons x rest ih =>
    obtain ⟨mid, hx, hrest⟩ := host_bind_eq_ok_iff.1 h
    obtain ⟨-, -, rfl⟩ := applyOverride_eq_ok_iff.1 hx
    refine ih (fun v hv => ?_) hrest
    obtain hv | rfl := List.mem_or_eq_of_mem_set hv
    · exact hregs v hv
    · exact fitsWidth_wrap hp _

theorem fitsWidth_zero (w : Width) : fitsWidth w 0 = true := by
  cases w with
  | unbounded => rfl
  | finite n =>
    have hpos : (0 : Int) < 2 ^ (n - 1) := by positivity
    exact decide_eq_true ⟨by omega, hpos⟩

/-! ### The invariant at construction (R45, R252) -/

theorem State.readReg_eq_getElem {s : State} {i : Nat} (h : i < s.regs.length) : s.readReg i = s.regs[i] := by
  simp [State.readReg, h]

theorem fitsPcLength_of_fitsPcWidth {w : Width} {len pc : Nat} (h : fitsPcWidth w len pc = true) :
    fitsPcLength w len = true := by
  cases w with
  | unbounded => rfl
  | finite p => exact decide_eq_true (of_decide_eq_true h).2.1

theorem inv_of_construct {p : Params} {m : Image} {o : Options} {s : State} (hm : Memory.tokensFit p m = true)
    (h : construct p m o = .ok s) : s.Inv := by
  obtain ⟨hp, hpc, hinc, hacc, regs, hregs, rfl⟩ := construct_eq_ok_iff.1 h
  have hbank : regs.length = p.numRegs := (applyOverrides_length hregs).trans List.length_replicate
  have hzero : ∀ v ∈ List.replicate p.numRegs (0 : Int), fitsWidth p.dataWidth v = true := fun v hv =>
    List.eq_of_mem_replicate hv ▸ fitsWidth_zero _
  have himage : Memory.wf p m = true := Bool.and_eq_true_iff.2 ⟨hm, fitsPcLength_of_fitsPcWidth hpc⟩
  refine ⟨⟨hp, hbank, hacc, hinc, fun i hi => ?_, hpc, himage⟩, Nat.zero_le _⟩
  rw [State.readReg_eq_getElem hi]
  exact applyOverrides_fitsWidth hp hzero hregs _ (List.getElem_mem hi)

/-! ### The images of the loader (R261, R262) -/

theorem tokenOf_fits {t : Text} {k : Token} (h : tokenOf t = .ok k) : k.fits 8 = true := by
  cases k with
  | halt => rfl
  | byte b => exact decide_eq_true (tokenOf_eq_byte_iff.1 h).1

theorem tokensOf_fits {ws : List Text} {ks : List Token} (h : tokensOf ws = .ok ks) : ∀ k ∈ ks, k.fits 8 = true := by
  induction ws generalizing ks with
  | nil => cases h; nofun
  | cons w rest ih =>
    obtain ⟨k, hk, h⟩ := host_bind_eq_ok_iff.1 h
    obtain ⟨ks', hks, h⟩ := host_bind_eq_ok_iff.1 h
    cases h
    exact List.forall_mem_cons.2 ⟨tokenOf_fits hk, ih hks⟩

theorem rewriteFinal_append (ks : List Token) (t : Token) : rewriteFinal (ks ++ [t]) = ks ++ rewriteFinal [t] := by
  induction ks with
  | nil => rfl
  | cons k rest ih =>
    cases rest with
    | nil => rfl
    | cons u rest => exact congrArg (k :: ·) ih

theorem mem_rewriteFinal {ks : List Token} {t : Token} (h : t ∈ rewriteFinal ks) : t ∈ ks ∨ t = .halt := by
  induction ks using rewriteFinal.induct with
  | case1 => cases h
  | case2 => exact .inr (List.mem_singleton.1 h)
  | case3 k hk => rw [rewriteFinal, if_neg hk] at h; exact .inl h
  | case4 k u rest ih =>
    obtain rfl | h := List.mem_cons.1 h
    · exact .inl List.mem_cons_self
    · exact (ih h).imp_left (List.mem_cons_of_mem k)

theorem imageOfWords_fits {ws : List Text} {m : Image} (h : imageOfWords ws = .ok m) : ∀ t ∈ m, t.fits 8 = true := by
  obtain ⟨ks, hks, h⟩ := host_bind_eq_ok_iff.1 h
  cases h
  intro t ht
  obtain ht | rfl := mem_rewriteFinal ht
  · exact tokensOf_fits hks t ht
  · rfl

/-- R260: whichever form the text has, the image is that of some words. -/
theorem load_image_eq_ok {text : Text} {l : Loaded} (h : load text = .ok l) : ∃ ws, imageOfWords ws = .ok l.image := by
  unfold load at h
  split at h
  next =>
    obtain ⟨ls, -, h⟩ := host_bind_eq_ok_iff.1 h
    obtain ⟨m, hm, h⟩ := host_bind_eq_ok_iff.1 h
    cases h; exact ⟨_, hm⟩
  next =>
    obtain ⟨m, hm, h⟩ := host_bind_eq_ok_iff.1 h
    cases h; exact ⟨_, hm⟩

/-- R261, log 4: the loader reads two digits, and no build has tokens of less than eight bits. -/
theorem load_tokensFit {p : Params} (hp : p.wf = true) {text : Text} {l : Loaded} (h : load text = .ok l) :
    Memory.tokensFit p l.image = true := by
  obtain ⟨ws, hws⟩ := load_image_eq_ok h
  have h8 : 8 ≤ p.tokenBits := by
    simp only [Params.wf, Params.tokenBitsOk, Bool.and_eq_true, decide_eq_true_eq] at hp
    exact hp.1.1
  exact List.all_eq_true.2 fun t ht => Token.fits_mono h8 (imageOfWords_fits hws t ht)

end Sys2Proof.Machine

open Sys2Proof Sys2Proof.Machine

/-- Settles O55: beside the overrides, whose checks do not read the registers, the conditions are those of
`construct_eq_ok_iff`. -/
theorem constructionAcceptsExactlyWhatFits : Obligations.ConstructionAcceptsExactlyWhatFits := by
  intro p m o
  rw [← exists_applyOverrides_eq_ok_iff (regs := List.replicate p.numRegs 0)]
  constructor
  · rintro ⟨s, h⟩
    obtain ⟨hp, hpc, hinc, hacc, regs, hregs, -⟩ := construct_eq_ok_iff.1 h
    exact ⟨hp, hpc, hinc, hacc, regs, hregs⟩
  · rintro ⟨hp, hpc, hinc, hacc, regs, hregs⟩
    exact ⟨_, construct_eq_ok_iff.2 ⟨hp, hpc, hinc, hacc, regs, hregs, rfl⟩⟩

/-- Settles O47: construction checks all but the image's tokens, and the loader makes only tokens that fit. -/
theorem constructedCoreHasTheInvariant : Obligations.ConstructedCoreHasTheInvariant := by
  refine ⟨fun _ _ _ _ => inv_of_construct, fun p text o s h => ?_⟩
  obtain ⟨l, hl, hs⟩ := host_bind_eq_ok_iff.1 h
  obtain ⟨hp, -⟩ := construct_eq_ok_iff.1 hs
  exact inv_of_construct (load_tokensFit hp hl) hs

/-- Settles O56: the rewrite walks past every token that another follows. -/
theorem finalZeroBecomesTheSentinel : Obligations.FinalZeroBecomesTheSentinel := by
  refine ⟨fun ks => rewriteFinal_append ks (.byte 0), fun ks t ht => ?_, rfl⟩
  rw [rewriteFinal_append, rewriteFinal, if_neg ht]

end

section
/-! The two forms of program text (`70_reset_and_hazards.md` R263, R264, R266): the lines of a long-form text give back the
words that were written on them. -/

namespace Sys2Proof.Machine

/-! ### Words and white space (R263) -/

@[simp] theorem wordsOf_nil : wordsOf [] = [] := rfl

theorem wordsOf_append_space (a b : Text) {c : Char} (hc : isSpace c = true) :
    wordsOf (a ++ c :: b) = wordsOf a ++ wordsOf b := by
  rw [wordsOf, List.splitOnP_append_cons a b hc, List.filter_append]
  rfl

theorem wordsOf_spaces_append {sp : Text} (h : ∀ c ∈ sp, isSpace c = true) (t : Text) :
    wordsOf (sp ++ t) = wordsOf t := by
  induction sp with
  | nil => rfl
  | cons c rest ih =>
    obtain ⟨hc, hrest⟩ := List.forall_mem_cons.1 h
    exact (wordsOf_append_space [] (rest ++ t) hc).trans (ih hrest)

theorem wordsOf_spaces {sp : Text} (h : ∀ c ∈ sp, isSpace c = true) : wordsOf sp = [] := by
  simpa using wordsOf_spaces_append h []

theorem wordsOf_append_spaces (t : Text) {sp : Text} (h : ∀ c ∈ sp, isSpace c = true) :
    wordsOf (t ++ sp) = wordsOf t := by
  cases sp with
  | nil => rw [List.append_nil]
  | cons c rest =>
    obtain ⟨hc, hrest⟩ := List.forall_mem_cons.1 h
    rw [wordsOf_append_space t rest hc, wordsOf_spaces hrest, List.append_nil]

/-- Trimming drops no word. -/
theorem wordsOf_trimText (t : Text) : wordsOf (trimText t) = wordsOf t := by
  have hstart : wordsOf (t.dropWhile isSpace) = wordsOf t := by
    conv_rhs => rw [← List.takeWhile_append_dropWhile (p := isSpace) (l := t)]
    exact (wordsOf_spaces_append (fun _ => List.mem_takeWhile_imp) _).symm
  have hend : wordsOf (trimText t) = wordsOf (t.dropWhile isSpace) := by
    conv_rhs => rw [← List.rdropWhile_append_rtakeWhile (p := isSpace) (l := t.dropWhile isSpace)]
    exact (wordsOf_append_spaces _ fun _ => List.mem_rtakeWhile_imp).symm
  exact hend.trans hstart

theorem mem_intercalate_texts {c : Char} {ts : List Text} (h : c ∈ [' '].intercalate ts) :
    c = ' ' ∨ ∃ t ∈ ts, c ∈ t := by
  induction ts with
  | nil => cases h
  | cons t rest ih =>
    cases rest with
    | nil => exact .inr ⟨t, List.mem_singleton_self t, by rwa [List.intercalate_singleton] at h⟩
    | cons u rest =>
      rw [List.intercalate_cons_cons, List.append_assoc, List.mem_append] at h
      obtain h | h := h
      · exact .inr ⟨t, List.mem_cons_self, h⟩
      · obtain rfl | h := List.mem_cons.1 h
        · exact .inl rfl
        · exact (ih h).imp_right fun ⟨v, hv, hc⟩ => ⟨v, List.mem_cons_of_mem t hv, hc⟩

theorem wordsOf_intercalate_texts (ts : List Text) : wordsOf ([' '].intercalate ts) = ts.flatMap wordsOf := by
  induction ts with
  | nil => rfl
  | cons t rest ih =>
    cases rest with
    | nil => rw [List.intercalate_singleton, List.flatMap_singleton]
    | cons u rest =>
      rw [List.intercalate_cons_cons, List.append_assoc, List.singleton_append, wordsOf_append_space _ _ rfl, ih]
      rfl

/-! ### One long-form line (R264) -/

theorem isSpace_of_hexDigit? {c : Char} (h : (hexDigit? c).isSome = true) : isSpace c = false ∧ c ≠ ':' := by
  have hall : ∀ n < 103, (hexDigit? (Char.ofNat n)).isSome = true →
      isSpace (Char.ofNat n) = false ∧ Char.ofNat n ≠ ':' := by decide
  obtain ⟨x, hx⟩ := Option.isSome_iff_exists.1 h
  have hc := hall c.toNat (toNat_lt_of_hexDigit? hx)
  rw [Char.ofNat_toNat] at hc
  exact hc h

/-- The first `:` ends the address, and the first `#` after it starts the comment (log 15). -/
theorem longLineOf_of_address {hi lo : Char} (hhi : (hexDigit? hi).isSome = true) (hlo : (hexDigit? lo).isSome = true)
    (rest : Text) :
    longLineOf (hi :: lo :: ':' :: rest) =
      .ok (trimText (rest.takeWhile (· ≠ '#')), trimText ((rest.dropWhile (· ≠ '#')).drop 1)) := by
  obtain ⟨hhi', hhi''⟩ := isSpace_of_hexDigit? hhi
  obtain ⟨hlo', hlo''⟩ := isSpace_of_hexDigit? hlo
  have hspan : (hi :: lo :: ':' :: rest).span (· ≠ ':') = ([hi, lo], ':' :: rest) := by
    simp [List.span_eq_takeWhile_dropWhile, hhi'', hlo'']
  have htrim : trimText [hi, lo] = [hi, lo] := by simp [trimText, hhi', hlo']
  rw [longLineOf, hspan]
  simp [htrim, hhi, hlo, List.span_eq_takeWhile_dropWhile]

/-- A long-form line as R266 has it: two characters of an address, words and a comment. -/
abbrev SourceLine := (Char × Char) × List Text × Text

/-- What is written of it, without the newline that ends it. -/
def SourceLine.text (l : SourceLine) : Text :=
  [l.1.1, l.1.2, ':', ' '] ++ [' '].intercalate l.2.1 ++ [' ', '#', ' '] ++ l.2.2

/-- The address is one, no word holds white space or the mark of a comment, and the comment stays on its line. -/
structure SourceLine.Wf (l : SourceLine) : Prop where
  hi : (hexDigit? l.1.1).isSome = true
  lo : (hexDigit? l.1.2).isSome = true
  words : ∀ w ∈ l.2.1, w ≠ [] ∧ ∀ c ∈ w, isSpace c = false ∧ c ≠ '#'
  comment : '\n' ∉ l.2.2

section Line
variable {l : SourceLine} (h : l.Wf)
include h

theorem SourceLine.Wf.isWord : ∀ w ∈ l.2.1, IsWord w := fun w hw => by
  obtain ⟨hne, hchars⟩ := h.words w hw
  exact ⟨hne, fun c hc => (hchars c hc).1⟩

theorem SourceLine.Wf.newline_not_mem : '\n' ∉ l.text := by
  have hdigit : ∀ c, (hexDigit? c).isSome = true → '\n' ≠ c := by rintro _ hc rfl; exact absurd hc (by decide)
  simp [SourceLine.text, hdigit _ h.hi, hdigit _ h.lo, newline_not_mem_intercalate h.isWord, h.comment]

theorem SourceLine.Wf.ne_mark {c : Char} (hc : c ∈ ' ' :: [' '].intercalate l.2.1 ++ [' ']) : c ≠ '#' := by
  have hspace : ' ' ≠ '#' := by decide
  simp only [List.cons_append, List.mem_cons, List.mem_append, List.not_mem_nil, or_false] at hc
  obtain rfl | hc | rfl := hc
  · exact hspace
  · obtain rfl | ⟨w, hw, hcw⟩ := mem_intercalate_texts hc
    · exact hspace
    · exact ((h.words w hw).2 c hcw).2
  · exact hspace

/-- The byte portion that R264 reads back from a line holds the line's words. -/
theorem SourceLine.Wf.longLineOf_text :
    ∃ bytes comment, longLineOf l.text = .ok (bytes, comment) ∧ wordsOf bytes = l.2.1 := by
  have htext : l.text =
      l.1.1 :: l.1.2 :: ':' :: ((' ' :: [' '].intercalate l.2.1 ++ [' ']) ++ '#' :: ' ' :: l.2.2) := by
    simp [SourceLine.text]
  have hbytes : ((' ' :: [' '].intercalate l.2.1 ++ [' ']) ++ '#' :: ' ' :: l.2.2).takeWhile (· ≠ '#') =
      ' ' :: [' '].intercalate l.2.1 ++ [' '] := by
    rw [List.takeWhile_append_of_pos fun c hc => decide_eq_true (h.ne_mark hc)]
    simp
  have hwords : wordsOf (' ' :: [' '].intercalate l.2.1 ++ [' ']) = l.2.1 := by
    have hspace : ∀ c ∈ [' '], isSpace c = true := fun c hc => List.mem_singleton.1 hc ▸ rfl
    rw [wordsOf_append_spaces _ hspace]
    exact (wordsOf_spaces_append hspace _).trans (wordsOf_intercalate h.isWord)
  refine ⟨_, _, htext ▸ longLineOf_of_address h.hi h.lo _, ?_⟩
  rw [wordsOf_trimText, hbytes, hwords]

theorem SourceLine.Wf.not_isBlankText : isBlankText l.text = false := by
  simp [isBlankText, SourceLine.text, (isSpace_of_hexDigit? h.hi).1]

end Line

/-! ### The whole text (R260, R263, R264) -/

/-- The lines of a long-form text, each ended by a newline. -/
def sourceText (lines : List SourceLine) : Text := lines.flatMap fun l => l.text ++ ['\n']

/-- The comments are no part of the image. -/
theorem map_image_bind (r : Except HostError Image) (comments : List Text) :
    (r >>= fun m => pure ⟨m, comments⟩ : Except HostError Loaded).map Loaded.image = r := by
  cases r <;> rfl

section Text
variable {lines : List SourceLine} (h : ∀ l ∈ lines, l.Wf)
include h

theorem splitOn_sourceText : (sourceText lines).splitOn '\n' = lines.map SourceLine.text ++ [[]] := by
  induction lines with
  | nil => rfl
  | cons l rest ih =>
    obtain ⟨hl, hrest⟩ := List.forall_mem_cons.1 h
    rw [sourceText, List.flatMap_cons, List.append_assoc, List.singleton_append,
      List.splitOn_append_cons_self_of_not_mem hl.newline_not_mem]
    exact congrArg (l.text :: ·) (ih hrest)

/-- Only the empty text after the last newline is a blank line. -/
theorem nonblank_lines_sourceText :
    ((sourceText lines).splitOn '\n').filter (fun line => !isBlankText line) = lines.map SourceLine.text := by
  have hlines : ∀ t ∈ lines.map SourceLine.text, (!isBlankText t) = true :=
    List.forall_mem_map.2 fun l hl => by rw [(h l hl).not_isBlankText]; rfl
  rw [splitOn_sourceText h, List.filter_append, List.filter_eq_self.2 hlines]
  exact List.append_nil _

theorem longLinesOf_map_text :
    ∃ ls, longLinesOf (lines.map SourceLine.text) = .ok ls ∧
      (ls.map Prod.fst).flatMap wordsOf = lines.flatMap fun l => l.2.1 := by
  induction lines with
  | nil => exact ⟨[], rfl, rfl⟩
  | cons l rest ih =>
    obtain ⟨hl, hrest⟩ := List.forall_mem_cons.1 h
    obtain ⟨bytes, comment, hline, hwords⟩ := hl.longLineOf_text
    obtain ⟨ls, hls, hflat⟩ := ih hrest
    refine ⟨(bytes, comment) :: ls, ?_, ?_⟩
    · exact host_bind_eq_ok_iff.2 ⟨_, hline, host_bind_eq_ok_iff.2 ⟨ls, hls, rfl⟩⟩
    · rw [List.map_cons, List.flatMap_cons, hflat, hwords, List.flatMap_cons]

theorem loadLong_sourceText :
    (loadLong (sourceText lines)).map Loaded.image = imageOfWords (lines.flatMap fun l => l.2.1) := by
  obtain ⟨ls, hls, hflat⟩ := longLinesOf_map_text h
  calc (loadLong (sourceText lines)).map Loaded.image
    _ = imageOfWords (wordsOf ([' '].intercalate (ls.map Prod.fst))) := by
      rw [loadLong, nonblank_lines_sourceText h, hls]
      exact map_image_bind _ _
    _ = imageOfWords (lines.flatMap fun l => l.2.1) := by rw [wordsOf_intercalate_texts, hflat]

end Text

theorem loadCompact_image (t : Text) : (loadCompact t).map Loaded.image = imageOfWords (wordsOf t) :=
  map_image_bind _ []

/-- R260: a line of the long form ends in a newline, and only the text of no lines is read as the compact form. -/
theorem load_sourceText {lines : List SourceLine} (h : ∀ l ∈ lines, l.Wf) :
    (load (sourceText lines)).map Loaded.image = imageOfWords (lines.flatMap fun l => l.2.1) := by
  cases lines with
  | nil => rfl
  | cons l rest =>
    have hnewline : '\n' ∈ sourceText (l :: rest) := by simp [sourceText]
    rw [load, if_pos hnewline, loadLong_sourceText h]

theorem load_words {ws : List Text} (h : ∀ w ∈ ws, IsWord w) :
    (load ([' '].intercalate ws)).map Loaded.image = imageOfWords ws := by
  rw [load, if_neg (newline_not_mem_intercalate h), loadCompact_image, wordsOf_intercalate h]

end Sys2Proof.Machine

open Sys2Proof Sys2Proof.Machine

/-- Settles O59: either form gives the image of the words, or the first error among them. -/
theorem longAndCompactFormsAgree : Obligations.LongAndCompactFormsAgree := by
  intro lines h
  have hlines : ∀ l ∈ lines, SourceLine.Wf l := fun l hl => by
    obtain ⟨hhi, hlo, hwords, hcomment⟩ := h l hl
    exact ⟨hhi, hlo, hwords, hcomment⟩
  have hwords : ∀ w ∈ lines.flatMap fun l => l.2.1, IsWord w := fun w hw => by
    obtain ⟨l, hl, hwl⟩ := List.mem_flatMap.1 hw
    exact (hlines l hl).isWord w hwl
  exact (load_sourceText hlines).trans (load_words hwords).symm

end
